-- ==== Sys2Proof/Word.lean ====
section
/-! DEFINITION. The widths of the machine: the 16-bit Word (00_scope.md R7) and the byte of the console (48_io.md R180). -/

namespace Sys2Proof

/-- A Word: "an unsigned 16-bit integer; the universal unit of storage and operand encoding" (R7). -/
abbrev Word := BitVec 16

/-- A byte of the image file or of the console (20_memory.md R53, 48_io.md R180, R182). -/
abbrev Byte := BitVec 8

/-- The index of one of the eight general registers (10_state.md R21). -/
abbrev Reg := Fin 8

end Sys2Proof
end

