-- ==== Sys2Proof/Machine/Alu.lean ====
section
/-! DEFINITION. The values that the arithmetic, bitwise and comparison instructions write. All is unsigned, on whole
16-bit Words (00_scope.md R7, D2); there are no flags (10_state.md R26), so this takes the place of a flags file. -/

namespace Sys2Proof.Machine

/-- ADD: the exact sum modulo 32768 (44_arithmetic.md R140). -/
def aluAdd (x y : Word) : Word := BitVec.ofNat 16 ((x.toNat + y.toNat) % 32768)

/-- MUL: the exact product modulo 32768 (R141). -/
def aluMul (x y : Word) : Word := BitVec.ofNat 16 ((x.toNat * y.toNat) % 32768)

/-- MOD: the unsigned remainder, with no further reduction (R142); its instruction asks first that `y` is not 0. -/
def aluMod (x y : Word) : Word := BitVec.ofNat 16 (x.toNat % y.toNat)

/-- AND, with no mask (45_bitwise.md R150). -/
def aluAnd (x y : Word) : Word := x &&& y

/-- OR, with no mask (R151). -/
def aluOr (x y : Word) : Word := x ||| y

/-- NOT: the complement with bit 15 cleared (R152). -/
def aluNot (x : Word) : Word := ~~~x &&& 0x7FFF

/-- EQ: 1 if the two Words are equal, else 0 (42_compare.md R120). -/
def aluEq (x y : Word) : Word := if x = y then 1 else 0

/-- GT: 1 if the first Word is greater, unsigned, else 0 (R121). -/
def aluGt (x y : Word) : Word := if y.toNat < x.toNat then 1 else 0

end Sys2Proof.Machine
end

