-- ==== Sys2Proof/Config.lean ====
section
/-! DEFINITION. The named parameters that the spec leaves to the implementation (00_scope.md R6). -/

namespace Sys2Proof

/-- A natural number from 1 up, the range that R6 gives `LINE_MAX`. -/
abbrev PosNat := { n : Nat // 1 ≤ n }

/-- The two parameters besides the image. `none` is the spec's `unbounded`.
DESIGN CHOICE, safe: they are constants of one machine, carried in its state (log entry 2). -/
structure Params where
  /-- `STACK_DEPTH`: most entries the stack can hold, any natural number (R6, D11). -/
  stackDepth : Option Nat
  /-- `LINE_MAX`: most characters, newline included, in one input line, a number from 1 up (R6, D13). -/
  lineMax : Option PosNat
deriving DecidableEq, Repr

/-- The spec's defaults: both unbounded (R6). -/
def Params.default : Params := { stackDepth := none, lineMax := none }

end Sys2Proof
end

