-- ==== Sys2Proof/Syntax.lean ====
section
/-! DEFINITION. The 22 instructions and the two kinds of operand slot (30_encoding.md R72, R73, R78). -/

namespace Sys2Proof

/-- A read slot (R72), its Word classified as R74 and R75 say. -/
inductive ReadSlot where
  /-- A literal, Words 0 to 32767: a 15-bit unsigned immediate. -/
  | lit (v : BitVec 15)
  /-- A register alias, Words 32768 to 32775. -/
  | reg (r : Reg)
  /-- A Word from 32776 up: `resolve` raises InvalidOperand with it. -/
  | invalid (w : Word)
deriving DecidableEq, Repr

/-- A destination slot (R72), its Word classified as R76 says. -/
inductive DestSlot where
  /-- A register alias, Words 32768 to 32775. -/
  | reg (r : Reg)
  /-- Any other Word, a literal among them: `dreg` raises InvalidOperand with it. -/
  | invalid (w : Word)
deriving DecidableEq, Repr

/-- One constructor per row of the opcode map (R78), operands in memory order, the source's mnemonics (R79). -/
inductive Instr where
  | halt
  | set (dest : DestSlot) (a : ReadSlot)
  | push (a : ReadSlot)
  | pop (dest : DestSlot)
  | eq (dest : DestSlot) (a b : ReadSlot)
  | gt (dest : DestSlot) (a b : ReadSlot)
  | jmp (a : ReadSlot)
  | jnz (cond a : ReadSlot)
  | jz (cond a : ReadSlot)
  | add (dest : DestSlot) (a b : ReadSlot)
  | mul (dest : DestSlot) (a b : ReadSlot)
  | mod (dest : DestSlot) (a b : ReadSlot)
  | and (dest : DestSlot) (a b : ReadSlot)
  | or (dest : DestSlot) (a b : ReadSlot)
  | not (dest : DestSlot) (a : ReadSlot)
  | rmem (dest : DestSlot) (a : ReadSlot)
  | wmem (a b : ReadSlot)
  | call (a : ReadSlot)
  | ret
  | out (a : ReadSlot)
  | inp (dest : DestSlot)
  | noop
deriving DecidableEq, Repr

/-- The destination slot, which is always the first operand word (R72); `none` where there is none. -/
def Instr.dest? : Instr → Option DestSlot
  | .set d _ | .pop d | .eq d _ _ | .gt d _ _ | .add d _ _ | .mul d _ _ | .mod d _ _ => some d
  | .and d _ _ | .or d _ _ | .not d _ | .rmem d _ | .inp d => some d
  | .halt | .push _ | .jmp _ | .jnz _ _ | .jz _ _ | .wmem _ _ | .call _ | .ret | .out _ | .noop => none

/-- The read slots in memory order; they follow the destination slot, where there is one (R72, R73). -/
def Instr.reads : Instr → List ReadSlot
  | .halt | .ret | .noop | .pop _ | .inp _ => []
  | .push a | .jmp a | .call a | .out a | .set _ a | .not _ a | .rmem _ a => [a]
  | .jnz a b | .jz a b | .wmem a b => [a, b]
  | .eq _ a b | .gt _ a b | .add _ a b | .mul _ a b | .mod _ a b | .and _ a b | .or _ a b => [a, b]

/-- The number of operand words (R70, R78). -/
def Instr.arity (i : Instr) : Nat := i.dest?.toList.length + i.reads.length

end Sys2Proof
end

