-- ==== Sys2Proof/Machine/State.lean ====
section
/-! DEFINITION. The state of the core, plain data: the tuple of 10_state.md R20, the parameters it runs under, and the
console lines it has not yet been given; the reasons a step can stop; the state right after reset. -/

namespace Sys2Proof.Machine

/-- The fault kinds (60_exceptions.md R200). Taking one is a next state (R209), not a stop of the model. -/
inductive FaultKind where
  /-- Loader: the image cannot be read (R206). -/
  | ioError
  /-- Loader: odd byte length, or more than 32768 Words (R207). -/
  | corruptImage
  /-- A memory index or a program-counter fetch out of bounds (R201). -/
  | addressError
  /-- An operand Word that is neither a literal nor a valid register for its slot (R202). -/
  | invalidOperand
  /-- An opcode Word from 22 up (R203). -/
  | unknownOpcode
  /-- POP on an empty stack (R204). -/
  | stackUnderflow
  /-- MOD with divisor 0 (R205). -/
  | divideByZero
  /-- PUSH or CALL on a full stack of finite depth (R208). -/
  | stackOverflow
deriving DecidableEq, Repr

/-- "initial state Running at PC=0; terminal states Halted and Faulted" (10_state.md R27). -/
inductive Status where
  | running
  | halted
  | faulted (kind : FaultKind)
deriving DecidableEq, Repr

/-- `fault_pc` and `fault_info` (10_state.md R27, 60_exceptions.md R209). -/
structure FaultRecord where
  /-- "the program counter at fault". -/
  pc : Word
  /-- The offending address, opcode Word or operand Word, 0 where there is none (R200). -/
  info : Word
deriving DecidableEq, Repr

/-- Program memory (20_memory.md R50): `size` Words, addresses 0 to `size - 1`. Its smallest unit is the Word (R53),
so a cell is an address and a Word. The cells list the Words that are not 0, in rising order of address; a Word in
bounds that is not listed is 0. DESIGN CHOICE of representation, safe (log entry 1). -/
structure Memory where
  /-- `N`, the number of Words, fixed for the whole run (R30, R50). -/
  size : Nat
  /-- The Words that are not 0. -/
  cells : List (Nat × Word)
deriving DecidableEq, Repr

/-- The whole state. -/
structure State where
  /-- `x[0]` to `x[7]` (10_state.md R21). -/
  regs : Vector Word 8
  /-- The program counter, a Word index (R24). -/
  pc : Word
  /-- Program memory (R30). -/
  mem : Memory
  /-- The stack, its top FIRST (R28; the spec writes the top last: log entry 9). -/
  stack : List Word
  /-- The input queue, the next character first (R29). -/
  inq : List Word
  /-- Running, Halted or Faulted (R27). -/
  status : Status
  /-- `fault_pc` and `fault_info`, which have no value until a fault is taken (R33, D24; log entry 8). -/
  faultRec : Option FaultRecord
  /-- The output trace, oldest byte first (R31). -/
  out : List Byte
  /-- `STACK_DEPTH` and `LINE_MAX`, which no step changes (00_scope.md R6; log entry 2). -/
  params : Params
  /-- The model's own: the lines that the console has ready and has not yet supplied, the next one first
  (48_io.md R183, R185). DESIGN CHOICE, safe (log entry 4). -/
  conIn : List (List Byte)
deriving DecidableEq, Repr

/-- Why the machine has no next state. None of these is a fault of the spec's (R200): those are next states. -/
inductive Fault where
  /-- Raised by `step` in `Halted`: "In `Halted` and in `Faulted(kind)` there is no step" (40_dispatch.md R90).
  Safe: the machine stops where the hardware has stopped (log entry 6). -/
  | halted
  /-- Raised by `step` in `Faulted(kind)`: there is no step (R90). Safe (log entry 6). -/
  | faulted
  /-- Raised by IN on an empty queue when the console has no line: the core is blocked and has no enabled step
  (48_io.md R184, R185, 40_dispatch.md R100). Safe: no state changes, and the IN completes once a line is there
  (log entry 5). -/
  | blocked
deriving DecidableEq, Repr

/-- Why an instruction has no meaning. -/
inductive Refusal where
  /-- Raised by an arm of `exec` whose instruction has no meaning yet. Safe. No arm does so. -/
  | notModelled (mnemonic : String)
  /-- Raised by IN when the line that the console supplies is not one that 48_io.md R182 admits (empty, no newline
  at its end, a newline before it, or longer than `LINE_MAX`): the host "is assumed never to" supply one
  (70_reset_and_hazards.md R240, D13). Safe (log entry 7). -/
  | malformedLine
deriving DecidableEq, Repr

/-- What a step or a meaning answers. -/
abbrev Result := Host.Outcome State Fault Refusal

/-- The state right after reset (10_state.md R33) with the empty image (20_memory.md R52) and the default parameters
(00_scope.md R6): no program is in the machine until one is loaded (`State.boot`, which also takes any other
parameters; log entries 2 and 3). -/
def State.reset : State where
  regs := #v[0, 0, 0, 0, 0, 0, 0, 0]
  pc := 0
  mem := { size := 0, cells := [] }
  stack := []
  inq := []
  status := .running
  faultRec := none
  out := []
  params := Params.default
  conIn := []

end Sys2Proof.Machine
end

