-- ==== Sys2Proof/Machine/Ops.lean ====
section
/-! DEFINITION. The named operations over registers, memory, stack and status (00_scope.md R9), and the one operation
that takes a fault (60_exceptions.md R209). There is no return from a fault (R211). -/

namespace Sys2Proof.Machine

/-! Registers and program counter. -/

/-- `x[r]` (R9). -/
def State.reg (s : State) (r : Reg) : Word := s.regs[r]

/-- `x[r] <- v` (R9). No register is hard-wired (10_state.md R21). -/
def State.setReg (s : State) (r : Reg) (v : Word) : State := { s with regs := s.regs.set r v }

/-- `pc <- t` (R9): any Word, with no check (43_jumps.md R133). -/
def State.jump (s : State) (t : Word) : State := { s with pc := t }

/-- `pc <- pc + 1 + k`, where `words` is `1 + k`, the length of the instruction (10_state.md R25). -/
def State.advance (s : State) (words : Nat) : State := { s with pc := s.pc + BitVec.ofNat 16 words }

/-- The state with another memory. -/
def State.setMem (s : State) (m : Memory) : State := { s with mem := m }

/-- The state with another stack, its top first. -/
def State.setStack (s : State) (stack : List Word) : State := { s with stack := stack }

/-- The state with another input queue. -/
def State.setQueue (s : State) (q : List Word) : State := { s with inq := q }

/-- The state with other lines that the console has ready. -/
def State.setConsole (s : State) (lines : List (List Byte)) : State := { s with conIn := lines }

/-- `out <- out ++ [b]` (48_io.md R180). -/
def State.emit (s : State) (b : Byte) : State := { s with out := s.out ++ [b] }

/-! Memory. -/

/-- The Word at address `a` among cells in rising order; a Word that is not listed is 0. -/
def cellsGet : List (Nat × Word) → Nat → Word
  | [], _ => 0
  | (b, w) :: cs, a => if a = b then w else cellsGet cs a

/-- The cells after the Word at address `a` has become `v`; they stay in rising order and list no 0. -/
def cellsSet : List (Nat × Word) → Nat → Word → List (Nat × Word)
  | [], a, v => if v = 0 then [] else [(a, v)]
  | (b, w) :: cs, a, v =>
    if a < b then (if v = 0 then (b, w) :: cs else (a, v) :: (b, w) :: cs)
    else if a = b then (if v = 0 then cs else (a, v) :: cs)
    else (b, w) :: cellsSet cs a v

/-- `mem[a]`, where there is one: `none` out of bounds (20_memory.md R51). -/
def Memory.read (m : Memory) (a : Nat) : Option Word :=
  if a < m.size then some (cellsGet m.cells a) else none

/-- Memory with `mem[a]` become `v`: `none` out of bounds, and memory never grows (R51). -/
def Memory.write (m : Memory) (a : Nat) (v : Word) : Option Memory :=
  if a < m.size then some { m with cells := cellsSet m.cells a v } else none

/-- The canonical form: at most 32768 Words (R50), addresses strictly rising and in bounds, no 0 listed. -/
abbrev Memory.wf (m : Memory) : Prop :=
  m.size ≤ 32768 ∧ m.cells.Pairwise (fun c d => c.1 < d.1) ∧ ∀ c ∈ m.cells, c.1 < m.size ∧ c.2 ≠ 0

/-! Taking a fault. -/

/-- `raise Kind(info)` (60_exceptions.md R209): status and fault record are written, `fault_pc` being the index of the
opcode Word of the instruction, and nothing else changes. -/
def State.raise (s : State) (kind : FaultKind) (info : Word) : State :=
  { s with status := .faulted kind, faultRec := some { pc := s.pc, info := info } }

/-- `status <- Halted`; `pc` keeps its value (40_dispatch.md R96, D8). -/
def State.halt (s : State) : State := { s with status := .halted }

/-- `MemRead(a, 1)` (R51), and what is done with the Word read. -/
def withMemRead (a : Word) (s : State) (k : Word → Result) : Result :=
  match s.mem.read a.toNat with
  | some v => k v
  | none => .next (s.raise .addressError a)

/-- `MemWrite(a, 1, v)` (R51), and what is done with the state after it. -/
def withMemWrite (a v : Word) (s : State) (k : State → Result) : Result :=
  match s.mem.write a.toNat v with
  | some m => k (s.setMem m)
  | none => .next (s.raise .addressError a)

/-! The stack. -/

/-- The stack holds `STACK_DEPTH` entries (41_move_stack.md R111); never so when it is unbounded. -/
abbrev State.stackFull (s : State) : Prop := s.params.stackDepth = some s.stack.length

/-- `push(v)`, or StackOverflow if the stack is full (60_exceptions.md R208), and what is done with the state after
the push. -/
def withPush (v : Word) (s : State) (k : State → Result) : Result :=
  if s.stackFull then .next (s.raise .stackOverflow 0) else k (s.setStack (v :: s.stack))

/-! The status port. -/

/-- The numeric code of a fault kind (60_exceptions.md R200, D10). -/
def FaultKind.code : FaultKind → Nat
  | .ioError => 1
  | .corruptImage => 2
  | .addressError => 3
  | .invalidOperand => 4
  | .unknownOpcode => 5
  | .stackUnderflow => 6
  | .divideByZero => 7
  | .stackOverflow => 8

/-- The numeric code of a status (R200, D10). -/
def Status.code : Status → Nat
  | .running => 0
  | .halted => 1
  | .faulted _ => 2

/-- What the status port shows (R217): the status code, the kind code (0 where there is no fault), and the fault
record, which is shown only in `Faulted`. -/
def State.statusPort (s : State) : Nat × Nat × Option FaultRecord :=
  match s.status with
  | .running => (Status.running.code, 0, none)
  | .halted => (Status.halted.code, 0, none)
  | .faulted k => ((Status.faulted k).code, k.code, s.faultRec)

end Sys2Proof.Machine
end

