-- ==== Sys2Proof/Machine/Operands.lean ====
section
/-! DEFINITION. The two operand forms: `resolve` of a read slot (30_encoding.md R75) and `dreg` of a destination slot
(R76). A meaning asks for its slots in memory order, so the first bad slot is the one reported (40_dispatch.md R94),
and before it writes anything, so every read sees the state before the instruction (R95). -/

namespace Sys2Proof.Machine

/-- `resolve(w)` of a read slot: its value, or the Word that raises InvalidOperand (R75). It writes nothing. -/
def resolve (s : State) : ReadSlot → Except Word Word
  | .lit v => .ok (v.setWidth 16)
  | .reg r => .ok (s.reg r)
  | .invalid w => .error w

/-- `dreg(w)` of a destination slot: the register index, or the Word that raises InvalidOperand (R76). -/
def dreg : DestSlot → Except Word Reg
  | .reg r => .ok r
  | .invalid w => .error w

/-- Validate and evaluate one read slot (40_dispatch.md R94, R95), and what is done with its value. -/
def withRead (a : ReadSlot) (s : State) (k : Word → Result) : Result :=
  match resolve s a with
  | .ok v => k v
  | .error w => .next (s.raise .invalidOperand w)

/-- Validate and evaluate the destination slot (R94, R95), and what is done with the register. -/
def withDest (d : DestSlot) (s : State) (k : Reg → Result) : Result :=
  match dreg d with
  | .ok r => k r
  | .error w => .next (s.raise .invalidOperand w)

/-- An instruction of format F2DR that writes a function of its operand to the destination and goes on; it is three
Words long (R73). -/
def writeUnary (f : Word → Word) (d : DestSlot) (a : ReadSlot) (s : State) : Result :=
  withDest d s fun r => withRead a s fun x => .next ((s.setReg r (f x)).advance 3)

/-- An instruction of format F3DRR that writes a function of its two operands to the destination and goes on; it is
four Words long (R73). -/
def writeBinary (f : Word → Word → Word) (d : DestSlot) (a b : ReadSlot) (s : State) : Result :=
  withDest d s fun r => withRead a s fun x => withRead b s fun y => .next ((s.setReg r (f x y)).advance 4)

/-- An instruction of format F2RR that jumps to its second operand if `taken` holds of the first, and goes on
otherwise; it is three Words long (R73). Both slots are validated either way (R94). -/
def jumpIf (taken : Word → Bool) (cond a : ReadSlot) (s : State) : Result :=
  withRead cond s fun c => withRead a s fun t => .next (if taken c then s.jump t else s.advance 3)

end Sys2Proof.Machine
end

