-- ==== Sys2Proof/Machine/Arithmetic.lean ====
section
/-! DEFINITION. ADD, MUL, MOD (44_arithmetic.md). -/

namespace Sys2Proof.Machine

/-- ADD (R140). -/
def execAdd (d : DestSlot) (a b : ReadSlot) (s : State) : Result := writeBinary aluAdd d a b s

/-- MUL (R141). -/
def execMul (d : DestSlot) (a b : ReadSlot) (s : State) : Result := writeBinary aluMul d a b s

/-- MOD (R142): DivideByZero if the divisor's value is 0, reported after a bad operand Word. -/
def execMod (d : DestSlot) (a b : ReadSlot) (s : State) : Result :=
  withDest d s fun r => withRead a s fun x => withRead b s fun y =>
    if y = 0 then .next (s.raise .divideByZero 0) else .next ((s.setReg r (aluMod x y)).advance 4)

end Sys2Proof.Machine
end

