-- ==== Sys2Proof/Machine/Bitwise.lean ====
section
/-! DEFINITION. AND, OR, NOT (45_bitwise.md). -/

namespace Sys2Proof.Machine

/-- AND (R150). -/
def execAnd (d : DestSlot) (a b : ReadSlot) (s : State) : Result := writeBinary aluAnd d a b s

/-- OR (R151). -/
def execOr (d : DestSlot) (a b : ReadSlot) (s : State) : Result := writeBinary aluOr d a b s

/-- NOT (R152). -/
def execNot (d : DestSlot) (a : ReadSlot) (s : State) : Result := writeUnary aluNot d a s

end Sys2Proof.Machine
end

