-- ==== Sys2Proof/Machine/CallRet.lean ====
section
/-! DEFINITION. CALL, RET (47_call_ret.md). -/

namespace Sys2Proof.Machine

/-- CALL (R170): push the index of the Word after the operand, then jump. -/
def execCall (a : ReadSlot) (s : State) : Result :=
  withRead a s fun t => withPush (s.pc + 2) s fun s' => .next (s'.jump t)

/-- RET (R171): pop and jump; on an empty stack halt, with nothing else changed. -/
def execRet (s : State) : Result :=
  match s.stack with
  | [] => .next s.halt
  | t :: rest => .next ((s.setStack rest).jump t)

end Sys2Proof.Machine
end

