-- ==== Sys2Proof/Machine/Compare.lean ====
section
/-! DEFINITION. EQ, GT (42_compare.md). -/

namespace Sys2Proof.Machine

/-- EQ (R120). -/
def execEq (d : DestSlot) (a b : ReadSlot) (s : State) : Result := writeBinary aluEq d a b s

/-- GT (R121). -/
def execGt (d : DestSlot) (a b : ReadSlot) (s : State) : Result := writeBinary aluGt d a b s

end Sys2Proof.Machine
end

