-- ==== Sys2Proof/Machine/HaltNoop.lean ====
section
/-! DEFINITION. HALT, NOOP (49_halt_noop.md). -/

namespace Sys2Proof.Machine

/-- HALT (R190): `pc` stays at the HALT. -/
def execHalt (s : State) : Result := .next s.halt

/-- NOOP (R191): nothing but `pc` changes. -/
def execNoop (s : State) : Result := .next (s.advance 1)

end Sys2Proof.Machine
end

