-- ==== Sys2Proof/Machine/Io.lean ====
section
/-! DEFINITION. OUT, IN and the console protocol (48_io.md). -/

namespace Sys2Proof.Machine

/-- `NEWLINE` (00_scope.md R6). PRESUMED by the spec itself from general knowledge (G1), unsafe if wrong
(log entry 10). -/
abbrev newline : Nat := 10

/-- Not empty, the last entry is the newline and no other is: the shape of a line, of bytes or of Words (R182). -/
def lineShape {n : Nat} : List (BitVec n) → Bool
  | [] => false
  | [c] => c.toNat == newline
  | c :: cs => c.toNat != newline && lineShape cs

/-- A line that the console may supply (R182): of the right shape and no longer than `LINE_MAX`. -/
def lineOk (p : Params) (line : List Byte) : Bool :=
  lineShape line && p.lineMax.all fun n => line.length ≤ n.val

/-- The host's side of `con_in`: the console gets one more line ready, after those it has (R183). -/
def State.supplyLine (s : State) (line : List Byte) : State := s.setConsole (s.conIn ++ [line])

/-- OUT (R180): bits 7 to 0 are appended to the output trace. -/
def execOut (a : ReadSlot) (s : State) : Result :=
  withRead a s fun x => .next ((s.emit (x.setWidth 8)).advance 2)

/-- The next character, and the state without it in the queue (R181): an empty queue is first refilled with one line,
its bytes zero-extended. The core is blocked if the console has no line (R184), and a line that R182 does not admit is
refused. -/
def withInput (s : State) (k : Word → State → Result) : Result :=
  match s.inq, s.conIn with
  | c :: rest, _ => k c (s.setQueue rest)
  | [], [] => .fault .blocked
  | [], [] :: _ => .refused .malformedLine
  | [], (b :: bs) :: lines =>
    if lineOk s.params (b :: bs) then k (b.setWidth 16) ((s.setQueue (bs.map (·.setWidth 16))).setConsole lines)
    else .refused .malformedLine

/-- "if the dequeued character is newline, clear the queue for the next read" (R181). -/
def State.clearOnNewline (s : State) (c : Word) : State :=
  s.setQueue (if c.toNat = newline then [] else s.inq)

/-- IN (R181): the destination is validated before any line is asked for. -/
def execIn (d : DestSlot) (s : State) : Result :=
  withDest d s fun r => withInput s fun c s' => .next (((s'.clearOnNewline c).setReg r c).advance 2)

end Sys2Proof.Machine
end

