-- ==== Sys2Proof/Machine/Jumps.lean ====
section
/-! DEFINITION. JMP, JNZ, JZ (43_jumps.md). Targets are stored with no check (R133). -/

namespace Sys2Proof.Machine

/-- JMP (R130). -/
def execJmp (a : ReadSlot) (s : State) : Result := withRead a s fun t => .next (s.jump t)

/-- JNZ (R131): the whole Word is compared with 0. -/
def execJnz (cond a : ReadSlot) (s : State) : Result := jumpIf (fun c => c != 0) cond a s

/-- JZ (R132): only the Word 0 counts as zero. -/
def execJz (cond a : ReadSlot) (s : State) : Result := jumpIf (fun c => c == 0) cond a s

end Sys2Proof.Machine
end

