-- ==== Sys2Proof/Machine/MemoryOps.lean ====
section
/-! DEFINITION. RMEM, WMEM (46_memory_ops.md): immediate and register-indirect addressing, both through `resolve`. -/

namespace Sys2Proof.Machine

/-- RMEM (R160): the raw memory Word goes to the register. -/
def execRmem (d : DestSlot) (a : ReadSlot) (s : State) : Result :=
  withDest d s fun r => withRead a s fun addr => withMemRead addr s fun v => .next ((s.setReg r v).advance 3)

/-- WMEM (R161): the first operand is the address and the second the value. -/
def execWmem (a b : ReadSlot) (s : State) : Result :=
  withRead a s fun addr => withRead b s fun v => withMemWrite addr v s fun s' => .next (s'.advance 3)

end Sys2Proof.Machine
end

