-- ==== Sys2Proof/Machine/MoveStack.lean ====
section
/-! DEFINITION. SET, PUSH, POP (41_move_stack.md). -/

namespace Sys2Proof.Machine

/-- SET (R110): the whole Word is copied. -/
def execSet (d : DestSlot) (a : ReadSlot) (s : State) : Result := writeUnary id d a s

/-- PUSH (R111). -/
def execPush (a : ReadSlot) (s : State) : Result :=
  withRead a s fun x => withPush x s fun s' => .next (s'.advance 2)

/-- POP (R112): StackUnderflow on an empty stack, reported after a bad destination Word. -/
def execPop (d : DestSlot) (s : State) : Result :=
  withDest d s fun r =>
    match s.stack with
    | [] => .next (s.raise .stackUnderflow 0)
    | v :: rest => .next (((s.setStack rest).setReg r v).advance 2)

end Sys2Proof.Machine
end

