-- ==== Sys2Proof/WellFormed.lean ====
section
/-! DEFINITION. Which instructions have only legal operand Words (30_encoding.md R82), and which terms are the
classification of some Word at all. -/

namespace Sys2Proof

/-- No illegal Word in this read slot (R82). -/
def ReadSlot.wellFormed : ReadSlot → Bool
  | .lit _ | .reg _ => true
  | .invalid _ => false

/-- No illegal Word in this destination slot (R82). -/
def DestSlot.wellFormed : DestSlot → Bool
  | .reg _ => true
  | .invalid _ => false

/-- Every operand Word of the instruction is legal (R82). -/
def Instr.wellFormed (i : Instr) : Bool :=
  i.dest?.all DestSlot.wellFormed && i.reads.all ReadSlot.wellFormed

/-- The illegal Word of a read slot, if it holds one. -/
def ReadSlot.invalidWord : ReadSlot → Option Word
  | .lit _ | .reg _ => none
  | .invalid w => some w

/-- The illegal Word of a destination slot, if it holds one. -/
def DestSlot.invalidWord : DestSlot → Option Word
  | .reg _ => none
  | .invalid w => some w

/-- The illegal Word of the first slot, in memory order, that holds one (40_dispatch.md R94). -/
def Instr.firstInvalid (i : Instr) : Option Word :=
  (i.dest?.bind DestSlot.invalidWord).or (i.reads.findSome? ReadSlot.invalidWord)

/-- The term is how some Word reads in a read slot: a Word kept as invalid is one that R75 calls invalid. -/
def ReadSlot.canonical : ReadSlot → Bool
  | .lit _ | .reg _ => true
  | .invalid w => 32776 ≤ w.toNat

/-- The term is how some Word reads in a destination slot: a Word kept as invalid is one that R76 calls invalid. -/
def DestSlot.canonical : DestSlot → Bool
  | .reg _ => true
  | .invalid w => w.toNat < 32768 || 32776 ≤ w.toNat

/-- Every slot is the classification of a Word; every well-formed instruction is canonical, and so is every one
that the decoder gives. -/
def Instr.canonical (i : Instr) : Bool :=
  i.dest?.all DestSlot.canonical && i.reads.all ReadSlot.canonical

end Sys2Proof
end

