-- ==== Sys2Proof/Decode.lean ====
section
/-! DEFINITION. Decoding Words to an instruction and encoding it back, from the opcode map of 30_encoding.md R78 and
the operand rules R74 to R76; 32768 is `REG_BASE` and 32775 is `REG_TOP` (00_scope.md R5). A decoded instruction may
hold an invalid operand Word: an operand is validated after the whole instruction has been fetched (40_dispatch.md R93,
R94), so that check belongs to the meanings. -/

namespace Sys2Proof

/-- How a Word reads in a read slot (R74, R75). -/
def ReadSlot.ofWord (w : Word) : ReadSlot :=
  if w.toNat < 32768 then .lit (w.setWidth 15)
  else if w.toNat < 32776 then .reg (Fin.ofNat 8 (w.toNat - 32768))
  else .invalid w

/-- How a Word reads in a destination slot (R74, R76). -/
def DestSlot.ofWord (w : Word) : DestSlot :=
  if 32768 ≤ w.toNat ∧ w.toNat < 32776 then .reg (Fin.ofNat 8 (w.toNat - 32768))
  else .invalid w

/-- The Word of a read slot (R74). -/
def ReadSlot.toWord : ReadSlot → Word
  | .lit v => v.setWidth 16
  | .reg r => BitVec.ofNat 16 (32768 + r.val)
  | .invalid w => w

/-- The Word of a destination slot (R74). -/
def DestSlot.toWord : DestSlot → Word
  | .reg r => BitVec.ofNat 16 (32768 + r.val)
  | .invalid w => w

/-- Why Words are no instruction. -/
inductive DecodeError where
  /-- The Words end before the one at this offset from the opcode Word (offset 0: there is no opcode Word). -/
  | missingWord (offset : Nat)
  /-- The opcode Word is 22 or more (R81). -/
  | unknownOpcode (op : Word)
deriving DecidableEq, Repr

/-- What decoding answers: the instruction and the Words after it, or why there is none. -/
abbrev Decoded := Except DecodeError (Instr × List Word)

/-- Operand Words of format F1R (R73), from offset 1. -/
def operandsR (mk : ReadSlot → Instr) : List Word → Decoded
  | w1 :: rest => .ok (mk (.ofWord w1), rest)
  | [] => .error (.missingWord 1)

/-- Operand Words of format F1D (R73). -/
def operandsD (mk : DestSlot → Instr) : List Word → Decoded
  | w1 :: rest => .ok (mk (.ofWord w1), rest)
  | [] => .error (.missingWord 1)

/-- Operand Words of format F2DR (R73). -/
def operandsDR (mk : DestSlot → ReadSlot → Instr) : List Word → Decoded
  | w1 :: w2 :: rest => .ok (mk (.ofWord w1) (.ofWord w2), rest)
  | [_] => .error (.missingWord 2)
  | [] => .error (.missingWord 1)

/-- Operand Words of format F2RR (R73). -/
def operandsRR (mk : ReadSlot → ReadSlot → Instr) : List Word → Decoded
  | w1 :: w2 :: rest => .ok (mk (.ofWord w1) (.ofWord w2), rest)
  | [_] => .error (.missingWord 2)
  | [] => .error (.missingWord 1)

/-- Operand Words of format F3DRR (R73). -/
def operandsDRR (mk : DestSlot → ReadSlot → ReadSlot → Instr) : List Word → Decoded
  | w1 :: w2 :: w3 :: rest => .ok (mk (.ofWord w1) (.ofWord w2) (.ofWord w3), rest)
  | [_, _] => .error (.missingWord 3)
  | [_] => .error (.missingWord 2)
  | [] => .error (.missingWord 1)

/-- The instruction whose opcode Word is `op` and whose operand Words begin `ws`, by the opcode map (R78); the opcode
Word is compared whole (R71). -/
def decodeOperands (op : Word) (ws : List Word) : Decoded :=
  match op.toNat with
  | 0 => .ok (.halt, ws)
  | 1 => operandsDR .set ws
  | 2 => operandsR .push ws
  | 3 => operandsD .pop ws
  | 4 => operandsDRR .eq ws
  | 5 => operandsDRR .gt ws
  | 6 => operandsR .jmp ws
  | 7 => operandsRR .jnz ws
  | 8 => operandsRR .jz ws
  | 9 => operandsDRR .add ws
  | 10 => operandsDRR .mul ws
  | 11 => operandsDRR .mod ws
  | 12 => operandsDRR .and ws
  | 13 => operandsDRR .or ws
  | 14 => operandsDR .not ws
  | 15 => operandsDR .rmem ws
  | 16 => operandsRR .wmem ws
  | 17 => operandsR .call ws
  | 18 => .ok (.ret, ws)
  | 19 => operandsR .out ws
  | 20 => operandsD .inp ws
  | 21 => .ok (.noop, ws)
  | _ => .error (.unknownOpcode op)

/-- The decoder: the instruction that begins a list of Words, and the Words after it (R70, R80). -/
def decode : List Word → Decoded
  | [] => .error (.missingWord 0)
  | op :: ws => decodeOperands op ws

/-- The opcode Word of an instruction (R78). -/
def Instr.opcode : Instr → Word
  | .halt => 0
  | .set _ _ => 1
  | .push _ => 2
  | .pop _ => 3
  | .eq _ _ _ => 4
  | .gt _ _ _ => 5
  | .jmp _ => 6
  | .jnz _ _ => 7
  | .jz _ _ => 8
  | .add _ _ _ => 9
  | .mul _ _ _ => 10
  | .mod _ _ _ => 11
  | .and _ _ _ => 12
  | .or _ _ _ => 13
  | .not _ _ => 14
  | .rmem _ _ => 15
  | .wmem _ _ => 16
  | .call _ => 17
  | .ret => 18
  | .out _ => 19
  | .inp _ => 20
  | .noop => 21

/-- The encoder: the opcode Word, the destination slot's Word where there is one, then the read slots' (R70, R72). -/
def encode (i : Instr) : List Word :=
  i.opcode :: (i.dest?.toList.map DestSlot.toWord ++ i.reads.map ReadSlot.toWord)

/-- The first four Words of an instruction whose lowest `nbits` bits are those of `w` and whose other bits are 0:
bit 0 is the lowest bit of the first Word (the numbering of opcode_table.json); four Words is the longest
instruction (R70). -/
def tableWords (nbits w : Nat) : List Word :=
  let v := w % 2 ^ nbits
  [BitVec.ofNat 16 v, BitVec.ofNat 16 (v / 2 ^ 16), BitVec.ofNat 16 (v / 2 ^ 32), BitVec.ofNat 16 (v / 2 ^ 48)]

/-- The instruction that the decoder reads from a word of the opcode table; the operand Words that the table gives no
bits are 0. -/
def decodeTableWord (nbits w : Nat) : Option Instr :=
  match decode (tableWords nbits w) with
  | .ok (i, _) => some i
  | .error _ => none

end Sys2Proof
end

