-- ==== Sys2Proof/Machine/Fetch.lean ====
section
/-! DEFINITION. Fetching an instruction from memory (40_dispatch.md R91 to R93), and placing Words in memory. -/

namespace Sys2Proof.Machine

/-- The Words of memory from address `a` on, at most `n` of them, as far as memory goes. -/
def Memory.window (m : Memory) (a : Nat) : Nat → List Word
  | 0 => []
  | n + 1 =>
    match m.read a with
    | some w => w :: m.window (a + 1) n
    | none => []

/-- The Words from which the instruction at `pc` is decoded: the longest instruction has four (30_encoding.md R70).
The addresses `pc + i` do not wrap (40_dispatch.md R93). -/
def State.fetchWords (s : State) : List Word := s.mem.window s.pc.toNat 4

/-- The fault of a decode that failed (R91, R92, R93): the opcode Word, or the first Word that is out of bounds, is its
`fault_info`. -/
def State.raiseDecode (s : State) : DecodeError → State
  | .missingWord offset => s.raise .addressError (BitVec.ofNat 16 (s.pc.toNat + offset))
  | .unknownOpcode op => s.raise .unknownOpcode op

/-- Memory with Words placed from address `a` on; it is made large enough to hold them. This is a load from outside
the machine, never a step of it. -/
def Memory.place (m : Memory) (a : Nat) : List Word → Memory
  | [] => m
  | w :: ws => Memory.place { size := max m.size (a + 1), cells := cellsSet m.cells a w } (a + 1) ws

end Sys2Proof.Machine
end

