-- ==== Sys2Proof/Machine/Step.lean ====
section
/-! DEFINITION. One step of the core: one whole instruction (40_dispatch.md R90, R99). -/

namespace Sys2Proof.Machine

/-- The step (R99). It exists only while `status` is Running (R90). -/
def step (s : State) : Host.Outcome State Fault Refusal :=
  match s.status with
  | .halted => .fault .halted
  | .faulted _ => .fault .faulted
  | .running =>
    match decode s.fetchWords with
    | .ok (i, _) => exec i s
    | .error e => .next (s.raiseDecode e)

/-- The state with the instruction whose lowest `nbits` bits are those of `w` placed at `pc` and the machine running, so
that the next step fetches and runs it. It stands for the loading of a program (log entry 3): memory is made
large enough for the four Words placed. -/
def State.withFetchWord (s : State) (nbits w : Nat) : State :=
  { s with status := .running, faultRec := none, mem := s.mem.place s.pc.toNat (tableWords nbits w) }

end Sys2Proof.Machine
end

