-- ==== Sys2Proof/Machine/Loader.lean ====
section
/-! DEFINITION. What crosses the boundary from the loader (70_reset_and_hazards.md R230, R231; 20_memory.md R53, R54),
and reset with an image. -/

namespace Sys2Proof.Machine

/-- Little-endian Words of a byte stream, in file order (R53); `none` if a byte is left over. -/
def wordsOfBytes : List Byte → Option (List Word)
  | [] => some []
  | [_] => none
  | lo :: hi :: rest =>
    match wordsOfBytes rest with
    | some ws => some (BitVec.ofNat 16 (lo.toNat + 256 * hi.toNat) :: ws)
    | none => none

/-- What the loader delivers for a byte source: IoError if it cannot be read, CorruptImage if its length is odd or more
than 65536 (R54, R206, R207), else the image. -/
def loadImage : Option (List Byte) → Except FaultKind (List Word)
  | none => .error .ioError
  | some bytes =>
    if 65536 < bytes.length then .error .corruptImage
    else
      match wordsOfBytes bytes with
      | some ws => .ok ws
      | none => .error .corruptImage

/-- The cells of an image whose first Word is at address `a`. -/
def cellsOfImage (a : Nat) : List Word → List (Nat × Word)
  | [] => []
  | w :: ws => if w = 0 then cellsOfImage (a + 1) ws else (a, w) :: cellsOfImage (a + 1) ws

/-- Memory "sized exactly to the loaded program" (R50). -/
def Memory.ofImage (image : List Word) : Memory := { size := image.length, cells := cellsOfImage 0 image }

/-- Reset with an image (R230), "a complete new state from an image and nothing else", of a machine whose parameters are
`params`: any that 00_scope.md R6 allows, its defaults where none are given. -/
def State.boot (image : List Word) (params : Params := Params.default) : State :=
  { State.reset with mem := Memory.ofImage image, params := params }

/-- Load and reset a machine of the given parameters: a load that fails leaves the core in reset, with no state (R206, R207). -/
def powerOn (source : Option (List Byte)) (params : Params := Params.default) : Except FaultKind State :=
  match loadImage source with
  | .ok image => .ok (State.boot image params)
  | .error k => .error k

end Sys2Proof.Machine
end

