-- ==== Sys2Proof/Safety.lean ====
section
/-! DEFINITION. What claims speak of: how a run ends (70_reset_and_hazards.md R234), when the core is blocked
(48_io.md R184), the invariant of the state (10_state.md R37), and a straight-line run of given instructions. -/

namespace Sys2Proof.Machine

/-- The run has ended successfully (R234, 60_exceptions.md R212). -/
abbrev State.EndedWell (s : State) : Prop := s.status = .halted

/-- The run has ended in a fault of this kind (R234). -/
abbrev State.EndedInFault (s : State) (k : FaultKind) : Prop := s.status = .faulted k

/-- The console can answer a request for a line, if one is made, with a line that R182 admits. -/
def State.inputReady (s : State) : Bool :=
  match s.inq, s.conIn with
  | _ :: _, _ => true
  | [], [] => false
  | [], line :: _ => lineOk s.params line

/-- The queue is empty, or it holds the rest of one line, its characters bytes (R37 c, R186). -/
def queueOk (q : List Word) : Bool := (q.isEmpty || lineShape q) && q.all fun c => c.toNat ≤ 255

/-- A bound, where there is one, is kept. -/
def within (n : Nat) (bound : Option Nat) : Bool := bound.all fun m => n ≤ m

/-- The fault record is there exactly in `Faulted`, its `fault_pc` is `pc`, and the kind is one that a step raises
(R27, 60_exceptions.md R206, R207, R209). -/
def State.recordOk (s : State) : Bool :=
  match s.status with
  | .running | .halted => s.faultRec.isNone
  | .faulted k => s.faultRec.map FaultRecord.pc == some s.pc && k != .ioError && k != .corruptImage

/-- The invariant of the state (R37): memory in canonical form and of legal size, the queue and the stack within their
bounds, the fault record as the status says. -/
structure State.Inv (s : State) : Prop where
  memory : s.mem.wf
  queue : queueOk s.inq = true
  queueBound : within s.inq.length (s.params.lineMax.map Subtype.val) = true
  stackBound : within s.stack.length s.params.stackDepth = true
  record : s.recordOk = true

/-- Every register and every stack entry is at most 32767 (10_state.md R22). -/
abbrev State.Narrow (s : State) : Prop := (∀ r, (s.reg r).toNat ≤ 32767) ∧ ∀ v ∈ s.stack, v.toNat ≤ 32767

/-- The characters that INs will deliver: those in the queue, then the lines of the console (48_io.md R183). -/
def State.pendingInput (s : State) : List Word := s.inq ++ s.conIn.flatten.map (·.setWidth 16)

/-! What a frame keeps. -/

/-- Every register is unchanged but for the destination register, where there is one. -/
abbrev SameRegs (but : Option DestSlot) (s t : State) : Prop := ∀ r, but ≠ some (.reg r) → t.reg r = s.reg r

/-- Memory has the same size, and every Word of it reads as before. -/
abbrev SameMemory (s t : State) : Prop := t.mem.size = s.mem.size ∧ ∀ a, t.mem.read a = s.mem.read a

/-- The input queue, the lines the console has ready, and the output trace are unchanged. -/
abbrev SameConsole (s t : State) : Prop := t.inq = s.inq ∧ t.conIn = s.conIn ∧ t.out = s.out

/-- Status and fault record are unchanged, unless a fault was taken, and then nothing else is changed. -/
abbrev SameStatusOrFault (s t : State) : Prop :=
  (t.status = s.status ∧ t.faultRec = s.faultRec) ∨ ∃ k info, t = s.raise k info

/-- An instruction of format F2DR that only writes `f` of its operand to its destination and goes on: how its Words
read, and what it does on operands that have values. -/
def UnaryRule (op : Word) (mk : DestSlot → ReadSlot → Instr) (f : Word → Word) : Prop :=
  (∀ w1 w2 rest, decode (op :: w1 :: w2 :: rest) = .ok (mk (.ofWord w1) (.ofWord w2), rest)) ∧
  ∀ (s : State) (r : Reg) (a : ReadSlot) (x : Word), resolve s a = .ok x →
    exec (mk (.reg r) a) s = .next { s with regs := s.regs.set r (f x), pc := s.pc + 3 }

/-- The same for format F3DRR. -/
def BinaryRule (op : Word) (mk : DestSlot → ReadSlot → ReadSlot → Instr) (f : Word → Word → Word) : Prop :=
  (∀ w1 w2 w3 rest,
    decode (op :: w1 :: w2 :: w3 :: rest) = .ok (mk (.ofWord w1) (.ofWord w2) (.ofWord w3), rest)) ∧
  ∀ (s : State) (r : Reg) (a b : ReadSlot) (x y : Word), resolve s a = .ok x → resolve s b = .ok y →
    exec (mk (.reg r) a b) s = .next { s with regs := s.regs.set r (f x y), pc := s.pc + 4 }

/-- The instructions that change `pc` other than by their own length (10_state.md R25). -/
def setsPc : Instr → Bool
  | .jmp _ | .jnz _ _ | .jz _ _ | .call _ | .ret => true
  | .halt | .set _ _ | .push _ | .pop _ | .eq _ _ _ | .gt _ _ _ | .add _ _ _ | .mul _ _ _ | .mod _ _ _ => false
  | .and _ _ _ | .or _ _ _ | .not _ _ | .rmem _ _ | .wmem _ _ | .out _ | .inp _ | .noop => false

/-- Run given instructions one after the other, whatever memory holds. -/
def execAll : List Instr → State → Result
  | [], s => .next s
  | i :: is, s =>
    match exec i s with
    | .next t => execAll is t
    | .fault r => .fault r
    | .refused r => .refused r

end Sys2Proof.Machine
end

