-- ==== Sys2Proof/Certificates/Slice0/Obligations.lean ====
section
/-! DEFINITION. The statements for the provers. Each docstring names the rules of spec/ that the statement formalises,
and the decisions of 92_eei_decisions.md or the log entries that it rests on. -/

open Sys2Proof Sys2Proof.Machine

/-! Encoding and decoding. -/

/-- 30_encoding.md R86: the images that the source gives, with their readings. -/
def Obligations.SourceImagesDecodeAsRead : Prop :=
  decode [1, 32768, 76, 19, 32768, 0] = .ok (.set (.reg 0) (.lit 76), [19, 32768, 0]) ∧
  decode [19, 32768, 0] = .ok (.out (.reg 0), [0]) ∧
  decode [0] = .ok (.halt, []) ∧
  decode [2, 5, 2, 7, 3, 32768, 3, 32769, 0] = .ok (.push (.lit 5), [2, 7, 3, 32768, 3, 32769, 0]) ∧
  decode [2, 7, 3, 32768, 3, 32769, 0] = .ok (.push (.lit 7), [3, 32768, 3, 32769, 0]) ∧
  decode [3, 32768, 3, 32769, 0] = .ok (.pop (.reg 0), [3, 32769, 0]) ∧
  decode [3, 32769, 0] = .ok (.pop (.reg 1), [0]) ∧
  decode [9, 32768, 4, 5, 0] = .ok (.add (.reg 0) (.lit 4) (.lit 5), [0]) ∧
  decode [11, 32768, 4, 0, 0] = .ok (.mod (.reg 0) (.lit 4) (.lit 0), [0]) ∧
  ∀ rest, decode (99 :: rest) = .error (.unknownOpcode 99)

/-- 30_encoding.md R70 to R78: what is encoded is decoded, whatever Words follow, with every operand at every value,
the illegal operand Words among them. -/
def Obligations.DecodeOfEncode : Prop :=
  ∀ (i : Instr) (rest : List Word), i.canonical = true → decode (encode i ++ rest) = .ok (i, rest)

/-- 30_encoding.md R70 to R80: no bit of the Words is dropped, and every decoded instruction is the reading of its
Words. -/
def Obligations.EncodeOfDecode : Prop :=
  ∀ (ws rest : List Word) (i : Instr), decode ws = .ok (i, rest) → encode i ++ rest = ws ∧ i.canonical = true

/-- 30_encoding.md R75: the value of a read slot that holds the Word `w`. -/
def Obligations.ResolveOfEveryWord : Prop :=
  ∀ (s : State) (w : Word),
    (w.toNat ≤ 32767 → resolve s (.ofWord w) = .ok w) ∧
    (∀ r : Reg, w.toNat = 32768 + r.val → resolve s (.ofWord w) = .ok (s.reg r)) ∧
    (32776 ≤ w.toNat → resolve s (.ofWord w) = .error w)

/-- 30_encoding.md R76: the register that a destination slot names. That every other Word is InvalidOperand is the
spec's decision D3. -/
def Obligations.DestinationOfEveryWord : Prop :=
  ∀ w : Word,
    (∀ r : Reg, w.toNat = 32768 + r.val → dreg (.ofWord w) = .ok r) ∧
    (w.toNat < 32768 ∨ 32776 ≤ w.toNat → dreg (.ofWord w) = .error w)

/-! The step. -/

/-- 40_dispatch.md R99: a running machine executes the instruction that the Words at `pc` decode to; the step adds
nothing around it. -/
def Obligations.StepRunsDecodedInstruction : Prop :=
  ∀ (s : State) (i : Instr) (rest : List Word), s.status = .running → decode s.fetchWords = .ok (i, rest) →
    step s = exec i s

/-- 40_dispatch.md R91, R93, R99: if memory holds the Words of an instruction from `pc` on, the step executes it,
wherever the instruction lies and whatever lies around it. -/
def Obligations.StepRunsInstructionInMemory : Prop :=
  ∀ (s : State) (i : Instr), s.status = .running → i.canonical = true →
    (∀ n < (encode i).length, s.mem.read (s.pc.toNat + n) = (encode i)[n]?) → step s = exec i s

/-- 40_dispatch.md R91: an opcode fetch out of bounds. -/
def Obligations.OpcodeFetchOutOfBounds : Prop :=
  ∀ s : State, s.status = .running → s.mem.size ≤ s.pc.toNat → step s = .next (s.raise .addressError s.pc)

/-- 40_dispatch.md R92, 30_encoding.md R71, R81: exactly the opcode Words 22 to 65535, compared whole, are unknown,
whatever follows them; fetching one faults. -/
def Obligations.UnknownOpcodeFrom22IsRaised : Prop :=
  (∀ (op op' : Word) (ws : List Word), decode (op :: ws) = .error (.unknownOpcode op') ↔ op' = op ∧ 22 ≤ op.toNat) ∧
  ∀ (s : State) (op : Word), s.status = .running → s.mem.read s.pc.toNat = some op → 22 ≤ op.toNat →
    step s = .next (s.raise .unknownOpcode op)

/-- 40_dispatch.md R93: the first operand Word out of bounds, at `pc + n`, for every opcode and whatever the operand
Words before it. That every operand Word is fetched, and before any is validated, is the spec's decision D4, D6. -/
def Obligations.OperandFetchOutOfBounds : Prop :=
  ∀ (s : State) (i : Instr) (n : Nat), s.status = .running → 0 < n → n < (encode i).length →
    (∀ m < n, s.mem.read (s.pc.toNat + m) = (encode i)[m]?) → s.mem.read (s.pc.toNat + n) = none →
    step s = .next (s.raise .addressError (BitVec.ofNat 16 (s.pc.toNat + n)))

/-- 40_dispatch.md R94: an instruction with an illegal operand Word raises InvalidOperand with the first such Word, used
or not, whatever else would go wrong. The spec's decisions D3, D5, D6, D9. -/
def Obligations.InvalidOperandIsRaisedFirst : Prop :=
  ∀ (i : Instr) (s : State) (w : Word), i.firstInvalid = some w → exec i s = .next (s.raise .invalidOperand w)

/-- 40_dispatch.md R90: in a terminal state there is no step. That the model answers with a fault of its own is log
entry 6. -/
def Obligations.NoStepInTerminalState : Prop :=
  ∀ s : State, s.status ≠ .running → ∀ t, step s ≠ .next t

/-- 40_dispatch.md R97, 60_exceptions.md R209: a step that ends in a fault changes status and fault record alone;
`fault_pc` is the `pc` of the instruction. `pc` unchanged is the spec's decision D8, no partial effect D6. -/
def Obligations.FaultsArePrecise : Prop :=
  ∀ (s t : State) (k : FaultKind), step s = .next t → t.status = .faulted k →
    ∃ info, t = { s with status := .faulted k, faultRec := some { pc := s.pc, info := info } }

/-- 40_dispatch.md R98, 60_exceptions.md R204, R205, R208: which instruction, in which state, raises the faults that only
one or two instructions raise; the loader's faults are raised by none. -/
def Obligations.ExecuteTimeFaultsByInstruction : Prop :=
  ∀ (s t : State) (k : FaultKind), step s = .next t → t.status = .faulted k →
    k = .addressError ∨ k = .invalidOperand ∨ k = .unknownOpcode ∨
    ∃ i rest, decode s.fetchWords = .ok (i, rest) ∧
      ((k = .stackUnderflow ∧ (∃ r, i = .pop (.reg r)) ∧ s.stack = []) ∨
       (k = .divideByZero ∧ ∃ r a b, i = .mod (.reg r) a b ∧ resolve s b = .ok 0) ∨
       (k = .stackOverflow ∧ (∃ a, i = .push a ∨ i = .call a) ∧ s.params.stackDepth = some s.stack.length))

/-- 60_exceptions.md R201: where `fault_info` of an AddressError lies tells the opcode fetch from the rest; in a legal
memory it is out of bounds. The rule marks this as derived. -/
def Obligations.AddressErrorTellsItsPlace : Prop :=
  ∀ (s t : State), s.Inv → step s = .next t → t.status = .faulted .addressError →
    ∃ info, t.faultRec = some { pc := s.pc, info := info } ∧ s.mem.size ≤ info.toNat ∧
      (info = s.pc ↔ s.mem.size ≤ s.pc.toNat)

/-- 60_exceptions.md R212: `Halted` is reached by HALT and by RET with an empty stack alone, and records no fault. -/
def Obligations.HaltedOnlyByHaltOrEmptyRet : Prop :=
  ∀ (s t : State), step s = .next t → t.status = .halted →
    t.faultRec = s.faultRec ∧
    ∃ i rest, decode s.fetchWords = .ok (i, rest) ∧ (i = .halt ∨ (i = .ret ∧ s.stack = []))

/-- 40_dispatch.md R100, 48_io.md R184: a running machine has a next state exactly unless it is about to execute an IN
with a legal destination and the console has no legal line to give it. The last part, a line that is not legal, is the
model's refusal (log entry 7). -/
def Obligations.OnlyInputCanSuspend : Prop :=
  ∀ s : State, s.status = .running →
    ((∃ t, step s = .next t) ↔
      ¬ ∃ r rest, decode s.fetchWords = .ok (.inp (.reg r), rest) ∧ s.inputReady = false)

/-! Reset, the loader and the invariant. -/

/-- 00_scope.md R6, 10_state.md R33, R37, 70_reset_and_hazards.md R230: reset with an image of legal size, of a machine
with any parameters, and the invariant there. The fault record without a value is the spec's decision D24. -/
def Obligations.BootLeavesResetState : Prop :=
  ∀ (image : List Word) (params : Params), image.length ≤ 32768 →
    (∀ r, (State.boot image params).reg r = 0) ∧ (State.boot image params).pc = 0 ∧
    (State.boot image params).mem.size = image.length ∧
    (∀ i, (State.boot image params).mem.read i = image[i]?) ∧
    (State.boot image params).stack = [] ∧ (State.boot image params).inq = [] ∧
    (State.boot image params).out = [] ∧ (State.boot image params).status = .running ∧
    (State.boot image params).faultRec = none ∧ (State.boot image params).params = params ∧
    (State.boot image params).Inv

/-- 20_memory.md R53, R54, 70_reset_and_hazards.md R231: what the loader makes of a byte source. The refusal of more than
65536 bytes is the spec's decision D1. -/
def Obligations.LoaderDeliversLittleEndianWords : Prop :=
  loadImage none = .error .ioError ∧
  ∀ bytes : List Byte,
    (bytes.length % 2 = 1 ∨ 65536 < bytes.length → loadImage (some bytes) = .error .corruptImage) ∧
    (bytes.length % 2 = 0 → bytes.length ≤ 65536 →
      ∃ image, loadImage (some bytes) = .ok image ∧ 2 * image.length = bytes.length ∧
        ∀ (i : Nat) (lo hi : Byte), bytes[2 * i]? = some lo → bytes[2 * i + 1]? = some hi →
          ∃ w, image[i]? = some w ∧ w.toNat = lo.toNat + 256 * hi.toNat)

/-- The invariant holds in `State.reset` (10_state.md R33, R37). -/
def Obligations.ResetMeetsInvariant : Prop := State.reset.Inv

/-- 10_state.md R37: every step keeps the invariant: memory stays in canonical form and of legal size, the queue holds
at most the rest of one line, stack and queue stay within their bounds, the fault record is there exactly in
`Faulted`. The rule marks its list as derived. -/
def Obligations.StepKeepsInvariant : Prop := ∀ s t : State, s.Inv → step s = .next t → t.Inv

/-- 10_state.md R37 a, d, R30, R31: no step changes `N` or a parameter, and the output trace only grows. -/
def Obligations.SizeConstantAndOutputGrows : Prop :=
  ∀ s t : State, step s = .next t → t.mem.size = s.mem.size ∧ t.params = s.params ∧ s.out <+: t.out

/-- 10_state.md R22: without a load of a wide Word and a CALL at 32766 or 32767, registers, stack and what is stored stay
at most 32767. The rule marks this as derived. -/
def Obligations.NarrowDataStaysNarrow : Prop :=
  ∀ (i : Instr) (s t : State), exec i s = .next t → s.Inv → s.Narrow →
    (∀ d a addr v, i = .rmem d a → resolve s a = .ok addr → s.mem.read addr.toNat = some v → v.toNat ≤ 32767) →
    (∀ a, i = .call a → s.pc.toNat < 32766) →
    t.Narrow ∧ ∀ a v, t.mem.read a = some v → s.mem.read a ≠ some v → v.toNat ≤ 32767

/-- 10_state.md R25: an instruction that does not set `pc` and leaves the machine Running moves it past its own Words. -/
def Obligations.PcMovesPastInstruction : Prop :=
  ∀ (i : Instr) (s t : State), exec i s = .next t → s.status = .running → t.status = .running →
    setsPc i = false → t.pc = s.pc + BitVec.ofNat 16 (1 + i.arity)

/-! Memory. -/

/-- 20_memory.md R51: the two memory primitives. The premise is the canonical form, which `StepKeepsInvariant` keeps. -/
def Obligations.MemoryPrimitives : Prop :=
  ∀ (s : State) (a v : Word), s.mem.wf →
    (s.mem.size ≤ a.toNat → ∀ (k : Word → Result) (k' : State → Result),
      withMemRead a s k = .next (s.raise .addressError a) ∧
      withMemWrite a v s k' = .next (s.raise .addressError a)) ∧
    (a.toNat < s.mem.size →
      (∃ w, ∀ k : Word → Result, s.mem.read a.toNat = some w ∧ withMemRead a s k = k w) ∧
      ∃ m, (∀ k' : State → Result, withMemWrite a v s k' = k' { s with mem := m }) ∧ m.size = s.mem.size ∧
        m.read a.toNat = some v ∧ ∀ b, b ≠ a.toNat → m.read b = s.mem.read b)

/-- 20_memory.md R61: a Word stored at the address of the next instruction is the first Word that the next step
decodes. -/
def Obligations.StoreSeenByNextFetch : Prop :=
  ∀ (s t : State) (a b : ReadSlot) (v : Word), s.mem.wf → resolve s a = .ok (s.pc + 3) → resolve s b = .ok v →
    (s.pc + 3).toNat < s.mem.size → exec (.wmem a b) s = .next t →
    t.pc = s.pc + 3 ∧ t.fetchWords.head? = some v

/-! The instructions. Each says how the instruction's Words read and in which next state it completes; what an illegal
operand Word does is `InvalidOperandIsRaisedFirst`. -/

/-- 41_move_stack.md R110. -/
def Obligations.SetCopiesWholeWord : Prop := UnaryRule 1 .set fun x => x

/-- 41_move_stack.md R111; the full stack is the spec's decision D11, and `fault_info` 0 its D9. -/
def Obligations.PushPutsValueOnStack : Prop :=
  (∀ w1 rest, decode (2 :: w1 :: rest) = .ok (.push (.ofWord w1), rest)) ∧
  ∀ (s : State) (a : ReadSlot) (x : Word), resolve s a = .ok x →
    (s.params.stackDepth ≠ some s.stack.length →
      exec (.push a) s = .next { s with stack := x :: s.stack, pc := s.pc + 2 }) ∧
    (s.params.stackDepth = some s.stack.length → exec (.push a) s = .next (s.raise .stackOverflow 0))

/-- 41_move_stack.md R112; that `fault_info` is 0 is the spec's decision D9. -/
def Obligations.PopTakesTopOfStack : Prop :=
  (∀ w1 rest, decode (3 :: w1 :: rest) = .ok (.pop (.ofWord w1), rest)) ∧
  ∀ (s : State) (r : Reg),
    (∀ v below, s.stack = v :: below →
      exec (.pop (.reg r)) s = .next { s with regs := s.regs.set r v, stack := below, pc := s.pc + 2 }) ∧
    (s.stack = [] → exec (.pop (.reg r)) s = .next (s.raise .stackUnderflow 0))

/-- 42_compare.md R120; comparing whole Words is the spec's decision D2. -/
def Obligations.EqWritesOneIfEqual : Prop := BinaryRule 4 .eq fun x y => if x = y then 1 else 0

/-- 42_compare.md R121; comparing whole Words is the spec's decision D2. -/
def Obligations.GtWritesOneIfGreaterUnsigned : Prop := BinaryRule 5 .gt fun x y => if x.toNat > y.toNat then 1 else 0

/-- 43_jumps.md R130: any value of the operand, a literal's or a register's, becomes `pc`, and an operand Word from
32776 up is InvalidOperand. -/
def Obligations.JmpGoesToTarget : Prop :=
  (∀ w1 rest, decode (6 :: w1 :: rest) = .ok (.jmp (.ofWord w1), rest)) ∧
  (∀ (s : State) (a : ReadSlot) (u : Word), resolve s a = .ok u → exec (.jmp a) s = .next { s with pc := u }) ∧
  ∀ (s : State) (w : Word), 32776 ≤ w.toNat → exec (.jmp (.ofWord w)) s = .next (s.raise .invalidOperand w)

/-- 43_jumps.md R131; that both slots are validated either way (D5) is `InvalidOperandIsRaisedFirst`. -/
def Obligations.JnzJumpsIfNotZero : Prop :=
  (∀ w1 w2 rest, decode (7 :: w1 :: w2 :: rest) = .ok (.jnz (.ofWord w1) (.ofWord w2), rest)) ∧
  ∀ (s : State) (cond a : ReadSlot) (c u : Word), resolve s cond = .ok c → resolve s a = .ok u →
    exec (.jnz cond a) s = .next { s with pc := if c ≠ 0 then u else s.pc + 3 }

/-- 43_jumps.md R132; that only the whole Word 0 is zero is the spec's decision D2. -/
def Obligations.JzJumpsIfZero : Prop :=
  (∀ w1 w2 rest, decode (8 :: w1 :: w2 :: rest) = .ok (.jz (.ofWord w1) (.ofWord w2), rest)) ∧
  ∀ (s : State) (cond a : ReadSlot) (c u : Word), resolve s cond = .ok c → resolve s a = .ok u →
    exec (.jz cond a) s = .next { s with pc := if c = 0 then u else s.pc + 3 }

/-- 44_arithmetic.md R140. -/
def Obligations.AddWritesSumModulo32768 : Prop :=
  BinaryRule 9 .add fun x y => BitVec.ofNat 16 ((x.toNat + y.toNat) % 32768)

/-- 44_arithmetic.md R141. -/
def Obligations.MulWritesProductModulo32768 : Prop :=
  BinaryRule 10 .mul fun x y => BitVec.ofNat 16 ((x.toNat * y.toNat) % 32768)

/-- 44_arithmetic.md R142; no further reduction is the spec's decision D2, and `fault_info` 0 its D9. -/
def Obligations.ModWritesRemainder : Prop :=
  (∀ w1 w2 w3 rest,
    decode (11 :: w1 :: w2 :: w3 :: rest) = .ok (.mod (.ofWord w1) (.ofWord w2) (.ofWord w3), rest)) ∧
  ∀ (s : State) (r : Reg) (a b : ReadSlot) (x y : Word), resolve s a = .ok x → resolve s b = .ok y →
    (y ≠ 0 → exec (.mod (.reg r) a b) s =
      .next { s with regs := s.regs.set r (BitVec.ofNat 16 (x.toNat % y.toNat)), pc := s.pc + 4 }) ∧
    (y = 0 → exec (.mod (.reg r) a b) s = .next (s.raise .divideByZero 0))

/-- 45_bitwise.md R150, bit by bit; no mask is the spec's decision D2. -/
def Obligations.AndWritesBitwiseAnd : Prop :=
  BinaryRule 12 .and fun x y => BitVec.ofFnLE fun n : Fin 16 => x.getLsbD n && y.getLsbD n

/-- 45_bitwise.md R151, bit by bit; no mask is the spec's decision D2. -/
def Obligations.OrWritesBitwiseOr : Prop :=
  BinaryRule 13 .or fun x y => BitVec.ofFnLE fun n : Fin 16 => x.getLsbD n || y.getLsbD n

/-- 45_bitwise.md R152, bit by bit: bits 14 to 0 are inverted and bit 15 is 0. -/
def Obligations.NotWritesComplementOf15Bits : Prop :=
  UnaryRule 14 .not fun x => BitVec.ofFnLE fun n : Fin 16 => n.val < 15 && !x.getLsbD n

/-- 46_memory_ops.md R160. -/
def Obligations.RmemLoadsMemoryWord : Prop :=
  (∀ w1 w2 rest, decode (15 :: w1 :: w2 :: rest) = .ok (.rmem (.ofWord w1) (.ofWord w2), rest)) ∧
  ∀ (s : State) (r : Reg) (a : ReadSlot) (addr : Word), resolve s a = .ok addr →
    (∀ v, s.mem.read addr.toNat = some v →
      exec (.rmem (.reg r) a) s = .next { s with regs := s.regs.set r v, pc := s.pc + 3 }) ∧
    (s.mem.size ≤ addr.toNat → exec (.rmem (.reg r) a) s = .next (s.raise .addressError addr))

/-- 46_memory_ops.md R161: the store, the address out of bounds, and an operand Word from 32776 up. The premise is the
canonical form of memory, which `StepKeepsInvariant` keeps. -/
def Obligations.WmemStoresMemoryWord : Prop :=
  (∀ w1 w2 rest, decode (16 :: w1 :: w2 :: rest) = .ok (.wmem (.ofWord w1) (.ofWord w2), rest)) ∧
  (∀ (s : State) (a b : ReadSlot) (addr v : Word), s.mem.wf → resolve s a = .ok addr → resolve s b = .ok v →
    (addr.toNat < s.mem.size → ∃ m, exec (.wmem a b) s = .next { s with mem := m, pc := s.pc + 3 } ∧
      m.size = s.mem.size ∧ m.read addr.toNat = some v ∧ ∀ n, n ≠ addr.toNat → m.read n = s.mem.read n) ∧
    (s.mem.size ≤ addr.toNat → exec (.wmem a b) s = .next (s.raise .addressError addr))) ∧
  ∀ (s : State) (w1 w2 : Word), 32776 ≤ w1.toNat ∨ 32776 ≤ w2.toNat →
    ∃ w, (w = w1 ∨ w = w2) ∧ 32776 ≤ w.toNat ∧
      exec (.wmem (.ofWord w1) (.ofWord w2)) s = .next (s.raise .invalidOperand w)

/-- 47_call_ret.md R170; the full stack is the spec's decision D11, and `fault_info` 0 its D9. -/
def Obligations.CallPushesReturnAddress : Prop :=
  (∀ w1 rest, decode (17 :: w1 :: rest) = .ok (.call (.ofWord w1), rest)) ∧
  ∀ (s : State) (a : ReadSlot) (u : Word), resolve s a = .ok u →
    (s.params.stackDepth ≠ some s.stack.length →
      exec (.call a) s = .next { s with stack := (s.pc + 2) :: s.stack, pc := u }) ∧
    (s.params.stackDepth = some s.stack.length → exec (.call a) s = .next (s.raise .stackOverflow 0))

/-- 47_call_ret.md R171; that `pc` stays at a RET that halts is the spec's decision D8. -/
def Obligations.RetPopsTargetOrHalts : Prop :=
  (∀ rest, decode (18 :: rest) = .ok (.ret, rest)) ∧
  ∀ s : State,
    (∀ u below, s.stack = u :: below → exec .ret s = .next { s with stack := below, pc := u }) ∧
    (s.stack = [] → exec .ret s = .next { s with status := .halted })

/-- 48_io.md R180; that OUT always succeeds is the spec's decision D21. -/
def Obligations.OutAppendsLowByte : Prop :=
  (∀ w1 rest, decode (19 :: w1 :: rest) = .ok (.out (.ofWord w1), rest)) ∧
  ∀ (s : State) (a : ReadSlot) (x : Word), resolve s a = .ok x →
    exec (.out a) s = .next { s with out := s.out ++ [BitVec.ofNat 8 (x.toNat % 256)], pc := s.pc + 2 }

/-- 48_io.md R181: from a queue that holds characters, and from an empty one when the console has a line. Bytes and their
zero extension are the spec's decision D12, one atomic step its D15, and the newline's code G1 (log entry 10). -/
def Obligations.InDeliversNextCharacter : Prop :=
  (∀ w1 rest, decode (20 :: w1 :: rest) = .ok (.inp (.ofWord w1), rest)) ∧
  (∀ (s : State) (r : Reg) (c : Word) (cs : List Word), s.inq = c :: cs →
    exec (.inp (.reg r)) s =
      .next { s with regs := s.regs.set r c, inq := if c = 10 then [] else cs, pc := s.pc + 2 }) ∧
  ∀ (s : State) (r : Reg) (b : Byte) (bs : List Byte) (lines : List (List Byte)),
    s.inq = [] → s.conIn = (b :: bs) :: lines → lineOk s.params (b :: bs) = true →
    exec (.inp (.reg r)) s =
      .next { s with
        regs := s.regs.set r (BitVec.ofNat 16 b.toNat)
        inq := if b = 10 then [] else bs.map fun c => BitVec.ofNat 16 c.toNat
        conIn := lines
        pc := s.pc + 2 }

/-- 49_halt_noop.md R190; that `pc` stays at the HALT is the spec's decision D8. -/
def Obligations.HaltStopsTheMachine : Prop :=
  (∀ rest, decode (0 :: rest) = .ok (.halt, rest)) ∧
  ∀ s : State, exec .halt s = .next { s with status := .halted }

/-- 49_halt_noop.md R191. -/
def Obligations.NoopOnlyAdvancesPc : Prop :=
  (∀ rest, decode (21 :: rest) = .ok (.noop, rest)) ∧ ∀ s : State, exec .noop s = .next { s with pc := s.pc + 1 }

/-! The console. -/

/-- 48_io.md R184, R185, R182, 70_reset_and_hazards.md R240: an instruction has no next state only when it is an IN that
finds no character, and the console has no line (it is blocked, and a line that arrives completes it) or a line that
the host is assumed never to supply. The two answers are the model's (log entries 5 and 7). -/
def Obligations.ExecStopsOnlyForWantOfALine : Prop :=
  (∀ (i : Instr) (s : State) (f : Fault), exec i s = .fault f ↔
    f = .blocked ∧ (∃ r, i = .inp (.reg r)) ∧ s.inq = [] ∧ s.conIn = []) ∧
  (∀ (i : Instr) (s : State) (q : Refusal), exec i s = .refused q ↔
    q = .malformedLine ∧ (∃ r, i = .inp (.reg r)) ∧ s.inq = [] ∧
    ∃ line lines, s.conIn = line :: lines ∧ lineOk s.params line = false) ∧
  ∀ (s : State) (r : Reg) (line : List Byte), s.inq = [] → s.conIn = [] → lineOk s.params line = true →
    ∃ t, exec (.inp (.reg r)) (s.supplyLine line) = .next t

/-- 48_io.md R183: successive INs deliver exactly the characters in the queue and then the lines of the console, byte by
byte. The rule marks this as derived. -/
def Obligations.InsDeliverConcatenationOfLines : Prop :=
  ∀ (s t : State) (r : Reg), queueOk s.inq = true → exec (.inp (.reg r)) s = .next t →
    s.pendingInput = t.reg r :: t.pendingInput ∧ queueOk t.inq = true

/-! Laws over several instructions. -/

/-- 41_move_stack.md R113: a sequence of pushes and as many pops into distinct registers gives the values in reverse and
leaves the stack as it was. -/
def Obligations.PushPopRoundTrip : Prop :=
  ∀ (s : State) (as : List ReadSlot) (vs : List Word) (ds : List Reg),
    List.Forall₂ (fun a v => resolve s a = .ok v) as vs → ds.length = vs.length → ds.Nodup →
    (∀ depth, s.params.stackDepth = some depth → s.stack.length + vs.length ≤ depth) →
    ∃ t, execAll (as.map Instr.push ++ ds.map fun r => .pop (.reg r)) s = .next t ∧ t.stack = s.stack ∧
      ds.map t.reg = vs.reverse

/-- 47_call_ret.md R172: a RET that finds the stack as the CALL left it resumes after the CALL and restores the stack; a
RET on an empty stack halts without error. -/
def Obligations.RetResumesAfterCall : Prop :=
  (∀ (s t u : State) (a : ReadSlot) (target : Word), resolve s a = .ok target → ¬ s.stackFull →
    exec (.call a) s = .next t → u.stack = t.stack →
    t.pc = target ∧ exec .ret u = .next { u with stack := s.stack, pc := s.pc + 2 }) ∧
  ∀ s : State, s.stack = [] → ∃ t, exec .ret s = .next t ∧ t.status = .halted ∧ t.faultRec = s.faultRec

/-- 45_bitwise.md R153: NOT twice. The value for wide operands is marked by the rule as derived. -/
def Obligations.NotTwiceIsIdentity : Prop :=
  ∀ (s : State) (r : Reg) (a : ReadSlot) (x : Word), resolve s a = .ok x →
    ∃ t, execAll [.not (.reg r) a, .not (.reg r) (.reg r)] s = .next t ∧
      t.reg r = if x.toNat ≤ 32767 then x else x - 32768

/-- 44_arithmetic.md R143, R144: ADD and MUL deliver 15 bits, whatever the Words, and look at bits 14 to 0 of their
operands alone. The rules mark both, beyond the source's range, as derived. -/
def Obligations.AddMulClosedIn15Bits : Prop :=
  ∀ (s : State) (r : Reg) (a b : ReadSlot) (x y : Word), resolve s a = .ok x → resolve s b = .ok y →
    (∃ t, exec (.add (.reg r) a b) s = .next t ∧ (t.reg r).toNat ≤ 32767 ∧
      (t.reg r).toNat = (x.toNat % 32768 + y.toNat % 32768) % 32768) ∧
    (∃ t, exec (.mul (.reg r) a b) s = .next t ∧ (t.reg r).toNat ≤ 32767 ∧
      (t.reg r).toNat = ((x.toNat % 32768) * (y.toNat % 32768)) % 32768)

/-! Frames: what is unchanged whenever `exec` answers a next state. -/

/-- SET, NOT, RMEM, EQ, GT, ADD, MUL, MOD, AND, OR (10_state.md R23, R26, 20_memory.md R64): only the destination register
and `pc` change, or a fault is taken. -/
def Obligations.FrameOfRegisterInstructions : Prop :=
  ∀ (d : DestSlot) (a b : ReadSlot) (s t : State),
    ∀ i ∈ [Instr.set d a, .not d a, .rmem d a, .eq d a b, .gt d a b, .add d a b, .mul d a b, .mod d a b, .and d a b,
      .or d a b], exec i s = .next t →
      SameRegs (some d) s t ∧ SameMemory s t ∧ t.stack = s.stack ∧ SameConsole s t ∧ t.params = s.params ∧
      SameStatusOrFault s t

/-- PUSH, POP, CALL (20_memory.md R63, 41_move_stack.md R111, R112, 47_call_ret.md R170): memory, console and every
register but POP's destination are unchanged, and the stack changes by one entry at its top at most. -/
def Obligations.FrameOfPushPopCall : Prop :=
  ∀ (d : DestSlot) (a : ReadSlot) (s t : State), ∀ i ∈ [Instr.push a, .pop d, .call a], exec i s = .next t →
    SameRegs i.dest? s t ∧ SameMemory s t ∧ SameConsole s t ∧ t.params = s.params ∧ SameStatusOrFault s t ∧
    (t.stack = s.stack ∨ (∃ v, t.stack = v :: s.stack ∧ ∀ d', i ≠ .pop d') ∨ (∃ v, s.stack = v :: t.stack ∧ i = .pop d))

/-- RET (20_memory.md R63, 47_call_ret.md R171): only `pc` and the top of the stack change, or, on an empty stack, only
the status. -/
def Obligations.FrameOfRet : Prop :=
  ∀ s t : State, exec .ret s = .next t →
    SameRegs none s t ∧ SameMemory s t ∧ SameConsole s t ∧ t.params = s.params ∧ t.faultRec = s.faultRec ∧
    ((∃ v, s.stack = v :: t.stack ∧ t.status = s.status) ∨
     (s.stack = [] ∧ t.stack = [] ∧ t.pc = s.pc ∧ t.status = .halted))

/-- JMP, JNZ, JZ, NOOP and HALT (43_jumps.md R130, 49_halt_noop.md R190, R191): registers, memory, stack and console are
unchanged; only HALT writes the status without a fault, and it leaves `pc` (D8). -/
def Obligations.FrameOfJumpsNoopHalt : Prop :=
  ∀ (cond a : ReadSlot) (s t : State), ∀ i ∈ [Instr.jmp a, .jnz cond a, .jz cond a, .noop, .halt], exec i s = .next t →
    SameRegs none s t ∧ SameMemory s t ∧ t.stack = s.stack ∧ SameConsole s t ∧ t.params = s.params ∧
    (SameStatusOrFault s t ∨ (i = .halt ∧ t.status = .halted ∧ t.faultRec = s.faultRec ∧ t.pc = s.pc))

/-- WMEM (46_memory_ops.md R161): the Word stored to is the one at the value of the first operand; every other Word, and
everything else but `pc`, is unchanged, or a fault is taken. -/
def Obligations.FrameOfStore : Prop :=
  ∀ (a b : ReadSlot) (s t : State), exec (.wmem a b) s = .next t →
    SameRegs none s t ∧ t.stack = s.stack ∧ SameConsole s t ∧ t.params = s.params ∧ SameStatusOrFault s t ∧
    t.mem.size = s.mem.size ∧
    ∀ addr, resolve s a = .ok addr → ∀ n, n ≠ addr.toNat → t.mem.read n = s.mem.read n

/-- OUT and IN (48_io.md R180, R181): OUT changes only `out` and `pc`; IN only its destination register, the queue, the
lines of the console and `pc`; or a fault is taken. -/
def Obligations.FrameOfConsole : Prop :=
  ∀ (d : DestSlot) (a : ReadSlot) (s t : State), ∀ i ∈ [Instr.out a, .inp d], exec i s = .next t →
    SameRegs i.dest? s t ∧ SameMemory s t ∧ t.stack = s.stack ∧ t.params = s.params ∧ SameStatusOrFault s t ∧
    (i = .out a → t.inq = s.inq ∧ t.conIn = s.conIn) ∧ (i = .inp d → t.out = s.out)
end

