-- ==== Sys2Proof/Laws/Alu.lean ====
section
/-! SUPPORT. The values that instructions write, as natural numbers. -/

namespace Sys2Proof.Machine

variable (x y : Word)

theorem aluAdd_toNat : (aluAdd x y).toNat = (x.toNat + y.toNat) % 32768 := by
  simp only [aluAdd, BitVec.toNat_ofNat]; omega

theorem aluMul_toNat : (aluMul x y).toNat = (x.toNat * y.toNat) % 32768 := by
  simp only [aluMul, BitVec.toNat_ofNat]; omega

theorem aluMod_toNat : (aluMod x y).toNat = x.toNat % y.toNat := by
  have := Nat.mod_le x.toNat y.toNat
  have := x.isLt
  simp only [aluMod, BitVec.toNat_ofNat]; omega

theorem aluNot_toNat : (aluNot x).toNat = 32767 - x.toNat % 32768 := by
  have h : (aluNot x).toNat = (65535 - x.toNat) &&& (2 ^ 15 - 1) := by
    unfold aluNot; rw [BitVec.toNat_and, BitVec.toNat_not]; rfl
  have := x.isLt
  rw [h, Nat.and_two_pow_sub_one_eq_mod]; omega

theorem aluAnd_toNat : (aluAnd x y).toNat = x.toNat &&& y.toNat := BitVec.toNat_and _ _

theorem aluOr_toNat : (aluOr x y).toNat = x.toNat ||| y.toNat := BitVec.toNat_or _ _

/-- A comparison writes 0 or 1. -/
theorem aluEq_cases : (x = y ∧ aluEq x y = 1) ∨ (x ≠ y ∧ aluEq x y = 0) := by
  by_cases h : x = y
  · exact .inl ⟨h, if_pos h⟩
  · exact .inr ⟨h, if_neg h⟩

/-- A comparison writes 0 or 1. -/
theorem aluGt_cases : (y.toNat < x.toNat ∧ aluGt x y = 1) ∨ (x.toNat ≤ y.toNat ∧ aluGt x y = 0) := by
  by_cases h : y.toNat < x.toNat
  · exact .inl ⟨h, if_pos h⟩
  · exact .inr ⟨Nat.le_of_not_lt h, if_neg h⟩

end Sys2Proof.Machine
end

