-- ==== Sys2Proof/Laws/Operands.lean ====
section
/-! SUPPORT. For each shared operation, what it does on good operands, and once everything it can do: proofs about
instructions cite these and do not unfold the operation. -/

namespace Sys2Proof.Machine

variable {s t : State}

@[simp] theorem resolve_lit (s : State) (v : BitVec 15) : resolve s (.lit v) = .ok (v.setWidth 16) := rfl
@[simp] theorem resolve_reg (s : State) (r : Reg) : resolve s (.reg r) = .ok (s.reg r) := rfl
@[simp] theorem resolve_invalid (s : State) (w : Word) : resolve s (.invalid w) = .error w := rfl

/-- A well-formed read slot always has a value. -/
theorem resolve_of_wellFormed {a : ReadSlot} (s : State) (h : a.wellFormed = true) : ∃ v, resolve s a = .ok v := by
  cases a with
  | lit v => exact ⟨_, rfl⟩
  | reg r => exact ⟨_, rfl⟩
  | invalid w => cases h

/-- Reading an operand looks at the registers alone. -/
theorem resolve_congr (h : t.regs = s.regs) (a : ReadSlot) : resolve t a = resolve s a := by
  cases a <;> simp [resolve, State.reg, h]

theorem withRead_ok {a : ReadSlot} {v : Word} (k : Word → Result) (h : resolve s a = .ok v) :
    withRead a s k = k v := by
  simp [withRead, h]

@[simp] theorem withRead_invalid (w : Word) (s : State) (k : Word → Result) :
    withRead (.invalid w) s k = .next (s.raise .invalidOperand w) := rfl

@[simp] theorem withDest_reg (r : Reg) (s : State) (k : Reg → Result) : withDest (.reg r) s k = k r := rfl
@[simp] theorem withDest_invalid (w : Word) (s : State) (k : Reg → Result) :
    withDest (.invalid w) s k = .next (s.raise .invalidOperand w) := rfl

/-- Every outcome of reading an operand is the InvalidOperand fault of its Word or what is done with its value. -/
theorem withRead_cases (a : ReadSlot) (s : State) (k : Word → Result) :
    (∃ w, a = .invalid w ∧ withRead a s k = .next (s.raise .invalidOperand w)) ∨
    (∃ v, resolve s a = .ok v ∧ withRead a s k = k v) := by
  cases a with
  | lit v => exact .inr ⟨_, rfl, rfl⟩
  | reg r => exact .inr ⟨_, rfl, rfl⟩
  | invalid w => exact .inl ⟨w, rfl, rfl⟩

/-- Every outcome of naming the destination. -/
theorem withDest_cases (d : DestSlot) (s : State) (k : Reg → Result) :
    (∃ w, d = .invalid w ∧ withDest d s k = .next (s.raise .invalidOperand w)) ∨
    (∃ r, d = .reg r ∧ withDest d s k = k r) := by
  cases d with
  | reg r => exact .inr ⟨r, rfl, rfl⟩
  | invalid w => exact .inl ⟨w, rfl, rfl⟩

/-- Every outcome of a memory read. -/
theorem withMemRead_cases (a : Word) (s : State) (k : Word → Result) :
    (s.mem.read a.toNat = none ∧ withMemRead a s k = .next (s.raise .addressError a)) ∨
    (∃ v, s.mem.read a.toNat = some v ∧ withMemRead a s k = k v) := by
  unfold withMemRead
  cases h : s.mem.read a.toNat with
  | none => exact .inl ⟨rfl, rfl⟩
  | some v => exact .inr ⟨v, rfl, rfl⟩

/-- Every outcome of a memory write. -/
theorem withMemWrite_cases (a v : Word) (s : State) (k : State → Result) :
    (s.mem.write a.toNat v = none ∧ withMemWrite a v s k = .next (s.raise .addressError a)) ∨
    (∃ m, s.mem.write a.toNat v = some m ∧ withMemWrite a v s k = k (s.setMem m)) := by
  unfold withMemWrite
  cases h : s.mem.write a.toNat v with
  | none => exact .inl ⟨rfl, rfl⟩
  | some m => exact .inr ⟨m, rfl, rfl⟩

/-- Every outcome of a push. -/
theorem withPush_cases (v : Word) (s : State) (k : State → Result) :
    (s.stackFull ∧ withPush v s k = .next (s.raise .stackOverflow 0)) ∨
    (¬ s.stackFull ∧ withPush v s k = k (s.setStack (v :: s.stack))) := by
  by_cases h : s.stackFull
  · exact .inl ⟨h, if_pos h⟩
  · exact .inr ⟨h, if_neg h⟩

/-- Every outcome of asking for a character. -/
theorem withInput_cases (s : State) (k : Word → State → Result) :
    (∃ c rest, s.inq = c :: rest ∧ withInput s k = k c (s.setQueue rest)) ∨
    (s.inq = [] ∧ s.conIn = [] ∧ withInput s k = .fault .blocked) ∨
    (∃ line lines, s.inq = [] ∧ s.conIn = line :: lines ∧ lineOk s.params line = false ∧
      withInput s k = .refused .malformedLine) ∨
    (∃ b bs lines, s.inq = [] ∧ s.conIn = (b :: bs) :: lines ∧ lineOk s.params (b :: bs) = true ∧
      withInput s k = k (b.setWidth 16) ((s.setQueue (bs.map (·.setWidth 16))).setConsole lines)) := by
  cases hq : s.inq with
  | cons c rest => exact .inl ⟨c, rest, rfl, by simp [withInput, hq]⟩
  | nil =>
    cases hc : s.conIn with
    | nil => exact .inr (.inl ⟨rfl, rfl, by simp [withInput, hq, hc]⟩)
    | cons line lines =>
      cases line with
      | nil => exact .inr (.inr (.inl ⟨[], lines, rfl, rfl, rfl, by simp [withInput, hq, hc]⟩))
      | cons b bs =>
        by_cases h : lineOk s.params (b :: bs) = true
        · exact .inr (.inr (.inr ⟨b, bs, lines, rfl, rfl, h, by simp [withInput, hq, hc, h]⟩))
        · exact .inr (.inr (.inl ⟨b :: bs, lines, rfl, rfl, by simpa using h, by simp [withInput, hq, hc, h]⟩))

/-! The instruction shapes: if one answers a next state, that state is one of these. -/

theorem withRead_next {a : ReadSlot} {k : Word → Result} (h : withRead a s k = .next t) :
    (∃ w, a = .invalid w ∧ t = s.raise .invalidOperand w) ∨ (∃ v, resolve s a = .ok v ∧ k v = .next t) := by
  rcases withRead_cases a s k with ⟨w, ha, hk⟩ | ⟨v, ha, hk⟩
  · rw [hk] at h; exact .inl ⟨w, ha, (Host.Outcome.next.inj h).symm⟩
  · rw [hk] at h; exact .inr ⟨v, ha, h⟩

theorem withDest_next {d : DestSlot} {k : Reg → Result} (h : withDest d s k = .next t) :
    (∃ w, d = .invalid w ∧ t = s.raise .invalidOperand w) ∨ (∃ r, d = .reg r ∧ k r = .next t) := by
  rcases withDest_cases d s k with ⟨w, hd, hk⟩ | ⟨r, hd, hk⟩
  · rw [hk] at h; exact .inl ⟨w, hd, (Host.Outcome.next.inj h).symm⟩
  · rw [hk] at h; exact .inr ⟨r, hd, h⟩

theorem writeUnary_next {f : Word → Word} {d : DestSlot} {a : ReadSlot} (h : writeUnary f d a s = .next t) :
    (∃ w, (d = .invalid w ∨ a = .invalid w) ∧ t = s.raise .invalidOperand w) ∨
    (∃ r x, d = .reg r ∧ resolve s a = .ok x ∧ t = (s.setReg r (f x)).advance 3) := by
  rcases withDest_next h with ⟨w, hd, rfl⟩ | ⟨r, rfl, h⟩
  · exact .inl ⟨w, .inl hd, rfl⟩
  rcases withRead_next h with ⟨w, ha, rfl⟩ | ⟨x, hx, h⟩
  · exact .inl ⟨w, .inr ha, rfl⟩
  · exact .inr ⟨r, x, rfl, hx, (Host.Outcome.next.inj h).symm⟩

theorem writeBinary_next {f : Word → Word → Word} {d : DestSlot} {a b : ReadSlot}
    (h : writeBinary f d a b s = .next t) :
    (∃ w, (d = .invalid w ∨ a = .invalid w ∨ b = .invalid w) ∧ t = s.raise .invalidOperand w) ∨
    (∃ r x y, d = .reg r ∧ resolve s a = .ok x ∧ resolve s b = .ok y ∧ t = (s.setReg r (f x y)).advance 4) := by
  rcases withDest_next h with ⟨w, hd, rfl⟩ | ⟨r, rfl, h⟩
  · exact .inl ⟨w, .inl hd, rfl⟩
  rcases withRead_next h with ⟨w, ha, rfl⟩ | ⟨x, hx, h⟩
  · exact .inl ⟨w, .inr (.inl ha), rfl⟩
  rcases withRead_next h with ⟨w, hb, rfl⟩ | ⟨y, hy, h⟩
  · exact .inl ⟨w, .inr (.inr hb), rfl⟩
  · exact .inr ⟨r, x, y, rfl, hx, hy, (Host.Outcome.next.inj h).symm⟩

theorem jumpIf_next {taken : Word → Bool} {cond a : ReadSlot} (h : jumpIf taken cond a s = .next t) :
    (∃ w, (cond = .invalid w ∨ a = .invalid w) ∧ t = s.raise .invalidOperand w) ∨
    (∃ c u, resolve s cond = .ok c ∧ resolve s a = .ok u ∧ t = if taken c then s.jump u else s.advance 3) := by
  rcases withRead_next h with ⟨w, hc, rfl⟩ | ⟨c, hc, h⟩
  · exact .inl ⟨w, .inl hc, rfl⟩
  rcases withRead_next h with ⟨w, ha, rfl⟩ | ⟨u, hu, h⟩
  · exact .inl ⟨w, .inr ha, rfl⟩
  · exact .inr ⟨c, u, hc, hu, (Host.Outcome.next.inj h).symm⟩

end Sys2Proof.Machine
end

