-- ==== Sys2Proof/Laws/Console.lean ====
section
/-! SUPPORT. Lines and the input queue. -/

namespace Sys2Proof.Machine

/-- A line is a newline alone, or a character that is none and then a line. -/
theorem lineShape_tail {n : Nat} {c : BitVec n} {cs : List (BitVec n)} (h : lineShape (c :: cs) = true) :
    (c.toNat = 10 ∧ cs = []) ∨ (c.toNat ≠ 10 ∧ lineShape cs = true) := by
  cases cs with
  | nil => left; simpa [lineShape] using h
  | cons d ds => right; simpa [lineShape] using h

/-- Zero extension of its bytes keeps the shape of a line. -/
theorem lineShape_map (l : List Byte) : lineShape (l.map (·.setWidth 16) : List Word) = lineShape l := by
  induction l with
  | nil => rfl
  | cons b bs ih =>
    have hb := b.isLt
    have : (b.setWidth 16).toNat = b.toNat := by simp only [BitVec.toNat_setWidth]; omega
    cases bs with
    | nil => simp only [List.map, lineShape, this]
    | cons c cs => simp only [List.map_cons, lineShape, this] at ih ⊢; rw [ih]

/-- After its first character has been taken, and the queue cleared if that was the newline, a legal queue is legal; the
newline is the last character. -/
theorem queueOk_step {c : Word} {cs : List Word} (h : queueOk (c :: cs) = true) :
    queueOk (if c.toNat = newline then [] else cs) = true ∧ (c.toNat = newline → cs = []) ∧ c.toNat ≤ 255 := by
  simp only [queueOk, List.isEmpty_cons, Bool.false_or, Bool.and_eq_true, List.all_cons, decide_eq_true_eq] at h
  obtain ⟨h1, h2, h3⟩ := h
  rcases lineShape_tail h1 with ⟨hc, rfl⟩ | ⟨hc, hs⟩
  · simp [hc, queueOk]
  · have : ¬ c.toNat = newline := hc
    refine ⟨?_, fun h => absurd h hc, h2⟩
    rw [if_neg this]
    simp only [queueOk, hs, Bool.or_true, Bool.true_and]; exact h3

/-- A legal line makes a legal queue. -/
theorem queueOk_line {b : Byte} {bs : List Byte} {p : Params} (h : lineOk p (b :: bs) = true) :
    queueOk (((b :: bs).map (·.setWidth 16)) : List Word) = true := by
  simp only [lineOk, Bool.and_eq_true] at h
  unfold queueOk
  rw [lineShape_map, h.1]
  simp only [Bool.or_true, Bool.true_and, List.all_eq_true, List.mem_map, decide_eq_true_eq]
  rintro _ ⟨c, _, rfl⟩
  have := c.isLt
  simp only [BitVec.toNat_setWidth]; omega

/-- Nothing exceeds no bound: an empty stack or queue keeps every parameter. -/
@[simp] theorem within_zero (bound : Option Nat) : within 0 bound = true := by
  cases bound <;> simp [within]

/-- The shortest line, the newline alone, is admitted by every machine, since `LINE_MAX` is at least 1 (00_scope.md R6,
48_io.md R182). -/
theorem lineOk_newline (p : Params) : lineOk p [10] = true := by
  cases h : p.lineMax with
  | none => simp [lineOk, lineShape, h]
  | some n => simpa [lineOk, lineShape, h] using n.property

/-- Every outcome of an IN with a legal destination. -/
theorem execIn_cases (r : Reg) (s : State) :
    (s.inputReady = true ∧ ∃ t, execIn (.reg r) s = .next t) ∨
    (s.inputReady = false ∧ s.inq = [] ∧ s.conIn = [] ∧ execIn (.reg r) s = .fault .blocked) ∨
    (s.inputReady = false ∧ s.inq = [] ∧ 
      (∃ line lines, s.conIn = line :: lines ∧ lineOk s.params line = false) ∧ execIn (.reg r) s = .refused .malformedLine) := by
  rcases withInput_cases s fun c s' => .next (((s'.clearOnNewline c).setReg r c).advance 2) with
      ⟨c, rest, hq, hk⟩ | ⟨hq, hc, hk⟩ | ⟨l, ls, hq, hc, hl, hk⟩ | ⟨b, bs, lines, hq, hc, hl, hk⟩
  · exact .inl ⟨by simp [State.inputReady, hq], _, hk⟩
  · exact .inr (.inl ⟨by simp [State.inputReady, hq, hc], hq, hc, hk⟩)
  · exact .inr (.inr ⟨by simp [State.inputReady, hq, hc, hl], hq, ⟨l, ls, hc, hl⟩, hk⟩)
  · exact .inl ⟨by simp [State.inputReady, hq, hc, hl], _, hk⟩

end Sys2Proof.Machine
end

