-- ==== Sys2Proof/Laws/Decode.lean ====
section
/-! SUPPORT. The small lemmas of the slots: a Word reads as a slot and back. -/

namespace Sys2Proof

theorem ReadSlot.ofWord_lit {w : Word} (h : w.toNat < 32768) : ReadSlot.ofWord w = .lit (w.setWidth 15) := by
  simp [ReadSlot.ofWord, h]

theorem ReadSlot.ofWord_reg {w : Word} {r : Reg} (h : w.toNat = 32768 + r.val) : ReadSlot.ofWord w = .reg r := by
  have := r.isLt
  simp only [ReadSlot.ofWord, h, if_neg (show ¬ 32768 + r.val < 32768 by omega),
    if_pos (show 32768 + r.val < 32776 by omega), Nat.add_sub_cancel_left]
  congr; exact Fin.ext (Nat.mod_eq_of_lt this)

theorem ReadSlot.ofWord_invalid {w : Word} (h : 32776 ≤ w.toNat) : ReadSlot.ofWord w = .invalid w := by
  simp only [ReadSlot.ofWord, if_neg (show ¬ w.toNat < 32768 by omega), if_neg (show ¬ w.toNat < 32776 by omega)]

theorem DestSlot.ofWord_reg {w : Word} {r : Reg} (h : w.toNat = 32768 + r.val) : DestSlot.ofWord w = .reg r := by
  have := r.isLt
  simp only [DestSlot.ofWord, h, if_pos (show 32768 ≤ 32768 + r.val ∧ 32768 + r.val < 32776 by omega),
    Nat.add_sub_cancel_left]
  congr; exact Fin.ext (Nat.mod_eq_of_lt this)

theorem DestSlot.ofWord_invalid {w : Word} (h : w.toNat < 32768 ∨ 32776 ≤ w.toNat) :
    DestSlot.ofWord w = .invalid w := by
  simp only [DestSlot.ofWord, if_neg (show ¬ (32768 ≤ w.toNat ∧ w.toNat < 32776) by omega)]

theorem regWord_toNat (r : Reg) : (BitVec.ofNat 16 (32768 + r.val)).toNat = 32768 + r.val := by
  have := r.isLt
  simp only [BitVec.toNat_ofNat]; omega

/-- The Word of a slot reads as the slot. -/
theorem ReadSlot.ofWord_toWord {a : ReadSlot} (h : a.canonical = true) : ReadSlot.ofWord a.toWord = a := by
  cases a with
  | lit v =>
    have hv := v.isLt
    have hn : (v.setWidth 16).toNat = v.toNat := by simp only [BitVec.toNat_setWidth]; omega
    rw [ReadSlot.toWord, ReadSlot.ofWord_lit (by omega)]
    congr; apply BitVec.eq_of_toNat_eq; simp only [BitVec.toNat_setWidth]; omega
  | reg r => exact ReadSlot.ofWord_reg (regWord_toNat r)
  | invalid w => exact ReadSlot.ofWord_invalid (by simpa [ReadSlot.canonical, ReadSlot.toWord] using h)

/-- The Word of a slot reads as the slot. -/
theorem DestSlot.ofWord_toWord {d : DestSlot} (h : d.canonical = true) : DestSlot.ofWord d.toWord = d := by
  cases d with
  | reg r => exact DestSlot.ofWord_reg (regWord_toNat r)
  | invalid w => exact DestSlot.ofWord_invalid (by simpa [DestSlot.canonical, DestSlot.toWord] using h)

/-- Every Word is of one of three kinds (R75). -/
theorem word_cases (w : Word) : w.toNat < 32768 ∨ (∃ r : Reg, w.toNat = 32768 + r.val) ∨ 32776 ≤ w.toNat := by
  by_cases h : w.toNat < 32776
  · by_cases h' : w.toNat < 32768
    · exact .inl h'
    · exact .inr (.inl ⟨⟨w.toNat - 32768, by omega⟩, by simp only; omega⟩)
  · exact .inr (.inr (by omega))

/-- No bit of a Word is lost when it is read as a slot, and the slot is canonical. -/
theorem ReadSlot.toWord_ofWord (w : Word) : (ReadSlot.ofWord w).toWord = w ∧ (ReadSlot.ofWord w).canonical = true := by
  rcases word_cases w with h | ⟨r, h⟩ | h
  · rw [ReadSlot.ofWord_lit h]
    refine ⟨BitVec.eq_of_toNat_eq ?_, rfl⟩
    simp only [ReadSlot.toWord, BitVec.toNat_setWidth]; omega
  · rw [ReadSlot.ofWord_reg h]
    exact ⟨BitVec.eq_of_toNat_eq (by rw [ReadSlot.toWord, regWord_toNat, h]), rfl⟩
  · rw [ReadSlot.ofWord_invalid h]; exact ⟨rfl, by simpa [ReadSlot.canonical] using h⟩

/-- No bit of a Word is lost when it is read as a slot, and the slot is canonical. -/
theorem DestSlot.toWord_ofWord (w : Word) : (DestSlot.ofWord w).toWord = w ∧ (DestSlot.ofWord w).canonical = true := by
  rcases word_cases w with h | ⟨r, h⟩ | h
  · rw [DestSlot.ofWord_invalid (.inl h)]; exact ⟨rfl, by simp [DestSlot.canonical, h]⟩
  · rw [DestSlot.ofWord_reg h]
    exact ⟨BitVec.eq_of_toNat_eq (by rw [DestSlot.toWord, regWord_toNat, h]), rfl⟩
  · rw [DestSlot.ofWord_invalid (.inr h)]; exact ⟨rfl, by simp [DestSlot.canonical, h]⟩

theorem ReadSlot.canonical_of_wellFormed {a : ReadSlot} (h : a.wellFormed = true) : a.canonical = true := by
  cases a <;> simp_all [ReadSlot.wellFormed, ReadSlot.canonical]

theorem DestSlot.canonical_of_wellFormed {d : DestSlot} (h : d.wellFormed = true) : d.canonical = true := by
  cases d <;> simp_all [DestSlot.wellFormed, DestSlot.canonical]

/-- A well-formed instruction is the reading of some Words. -/
theorem Instr.canonical_of_wellFormed {i : Instr} (h : i.wellFormed = true) : i.canonical = true := by
  simp only [Instr.wellFormed, Instr.canonical, Bool.and_eq_true, List.all_eq_true] at h ⊢
  refine ⟨?_, fun a ha => ReadSlot.canonical_of_wellFormed (h.2 a ha)⟩
  cases hd : i.dest? with
  | none => rfl
  | some d => have := h.1; rw [hd] at this; exact DestSlot.canonical_of_wellFormed this

/-! The operand Words of each format: what was read when decoding them succeeded. -/

theorem operandsR_ok {mk : ReadSlot → Instr} {ws rest : List Word} {i : Instr}
    (h : operandsR mk ws = .ok (i, rest)) :
    ∃ w1, ws = w1 :: rest ∧ i = mk (.ofWord w1) := by
  match ws, h with
  | w1 :: ws, h => cases h; exact ⟨w1, rfl, rfl⟩

theorem operandsD_ok {mk : DestSlot → Instr} {ws rest : List Word} {i : Instr}
    (h : operandsD mk ws = .ok (i, rest)) :
    ∃ w1, ws = w1 :: rest ∧ i = mk (.ofWord w1) := by
  match ws, h with
  | w1 :: ws, h => cases h; exact ⟨w1, rfl, rfl⟩

theorem operandsDR_ok {mk : DestSlot → ReadSlot → Instr} {ws rest : List Word} {i : Instr}
    (h : operandsDR mk ws = .ok (i, rest)) :
    ∃ w1 w2, ws = w1 :: w2 :: rest ∧ i = mk (.ofWord w1) (.ofWord w2) := by
  match ws, h with
  | w1 :: w2 :: ws, h => cases h; exact ⟨w1, w2, rfl, rfl⟩

theorem operandsRR_ok {mk : ReadSlot → ReadSlot → Instr} {ws rest : List Word} {i : Instr}
    (h : operandsRR mk ws = .ok (i, rest)) :
    ∃ w1 w2, ws = w1 :: w2 :: rest ∧ i = mk (.ofWord w1) (.ofWord w2) := by
  match ws, h with
  | w1 :: w2 :: ws, h => cases h; exact ⟨w1, w2, rfl, rfl⟩

theorem operandsDRR_ok {mk : DestSlot → ReadSlot → ReadSlot → Instr} {ws rest : List Word} {i : Instr}
    (h : operandsDRR mk ws = .ok (i, rest)) :
    ∃ w1 w2 w3, ws = w1 :: w2 :: w3 :: rest ∧ i = mk (.ofWord w1) (.ofWord w2) (.ofWord w3) := by
  match ws, h with
  | w1 :: w2 :: w3 :: ws, h => cases h; exact ⟨w1, w2, w3, rfl, rfl⟩

/-- A decode that ends early names the first Word that is missing; an instruction has four at most. -/
theorem decode_missingWord {ws : List Word} {n : Nat} (h : decode ws = .error (.missingWord n)) : ws.length = n ∧ n < 4 := by
  match ws, h with
  | [], h => cases h; simp
  | op :: ws, h =>
    change decodeOperands op ws = _ at h
    unfold decodeOperands at h
    split at h <;> first
      | (cases h)
      | (rcases ws with _ | ⟨w1, _ | ⟨w2, _ | ⟨w3, ws⟩⟩⟩ <;> cases h <;> simp)

end Sys2Proof
end

