-- ==== Sys2Proof/Laws/Exec.lean ====
section
/-! SUPPORT. Once, everything a step can do: the shapes of a next state, instruction by instruction. -/

namespace Sys2Proof.Machine

variable {s t : State}

/-- The next states that an instruction has by its own effect or by the fault it takes. -/
inductive Effect (s : State) : Instr → State → Prop where
  | halt : Effect s .halt s.halt
  | noop : Effect s .noop (s.advance 1)
  | badSlot {i : Instr} (w : Word) (h : i.dest? = some (.invalid w) ∨ .invalid w ∈ i.reads) :
    Effect s i (s.raise .invalidOperand w)
  | unary {r : Reg} {a : ReadSlot} {x : Word} (f : Word → Word) (i : Instr) (hx : resolve s a = .ok x)
    (hi : (i = .set (.reg r) a ∧ f = id) ∨ (i = .not (.reg r) a ∧ f = aluNot)) :
    Effect s i ((s.setReg r (f x)).advance 3)
  | binary {r : Reg} {a b : ReadSlot} {x y : Word} (f : Word → Word → Word) (i : Instr) (hx : resolve s a = .ok x)
    (hy : resolve s b = .ok y)
    (hi : (i = .eq (.reg r) a b ∧ f = aluEq) ∨ (i = .gt (.reg r) a b ∧ f = aluGt) ∨ (i = .add (.reg r) a b ∧ f = aluAdd) ∨
      (i = .mul (.reg r) a b ∧ f = aluMul) ∨ (i = .and (.reg r) a b ∧ f = aluAnd) ∨ (i = .or (.reg r) a b ∧ f = aluOr) ∨
      (i = .mod (.reg r) a b ∧ f = aluMod ∧ y ≠ 0)) :
    Effect s i ((s.setReg r (f x y)).advance 4)
  | divideByZero {r : Reg} {a b : ReadSlot} (hy : resolve s b = .ok 0) :
    Effect s (.mod (.reg r) a b) (s.raise .divideByZero 0)
  | jump {i : Instr} {a : ReadSlot} {u : Word} (hu : resolve s a = .ok u)
    (hi : i = .jmp a ∨ (∃ cond c, i = .jnz cond a ∧ resolve s cond = .ok c ∧ c ≠ 0) ∨
      (∃ cond, i = .jz cond a ∧ resolve s cond = .ok 0)) :
    Effect s i (s.jump u)
  | fallThrough {i : Instr} {cond a : ReadSlot} {c : Word} (hc : resolve s cond = .ok c)
    (hi : (i = .jnz cond a ∧ c = 0) ∨ (i = .jz cond a ∧ c ≠ 0)) : Effect s i (s.advance 3)
  | load {r : Reg} {a : ReadSlot} {addr v : Word} (ha : resolve s a = .ok addr) (hv : s.mem.read addr.toNat = some v) :
    Effect s (.rmem (.reg r) a) ((s.setReg r v).advance 3)
  | store {a b : ReadSlot} {addr v : Word} {m : Memory} (ha : resolve s a = .ok addr) (hb : resolve s b = .ok v)
    (hm : s.mem.write addr.toNat v = some m) : Effect s (.wmem a b) ((s.setMem m).advance 3)
  | badAddress {i : Instr} {a : ReadSlot} {addr : Word} (ha : resolve s a = .ok addr) (hn : s.mem.size ≤ addr.toNat)
    (hi : (∃ r, i = .rmem (.reg r) a) ∨ (∃ b, i = .wmem a b)) : Effect s i (s.raise .addressError addr)
  | push {a : ReadSlot} {v : Word} (hv : resolve s a = .ok v) (hf : ¬ s.stackFull) :
    Effect s (.push a) ((s.setStack (v :: s.stack)).advance 2)
  | call {a : ReadSlot} {u : Word} (hu : resolve s a = .ok u) (hf : ¬ s.stackFull) :
    Effect s (.call a) ((s.setStack ((s.pc + 2) :: s.stack)).jump u)
  | overflow {i : Instr} {a : ReadSlot} (hf : s.stackFull) (hi : i = .push a ∨ i = .call a) :
    Effect s i (s.raise .stackOverflow 0)
  | pop {r : Reg} {v : Word} {rest : List Word} (hs : s.stack = v :: rest) :
    Effect s (.pop (.reg r)) (((s.setStack rest).setReg r v).advance 2)
  | underflow {r : Reg} (hs : s.stack = []) : Effect s (.pop (.reg r)) (s.raise .stackUnderflow 0)
  | ret {u : Word} {rest : List Word} (hs : s.stack = u :: rest) : Effect s .ret ((s.setStack rest).jump u)
  | retHalt (hs : s.stack = []) : Effect s .ret s.halt
  | out {a : ReadSlot} {x : Word} (hx : resolve s a = .ok x) : Effect s (.out a) ((s.emit (x.setWidth 8)).advance 2)
  | inQueue {r : Reg} {c : Word} {rest : List Word} (hq : s.inq = c :: rest) :
    Effect s (.inp (.reg r)) ((((s.setQueue rest).clearOnNewline c).setReg r c).advance 2)
  | inRefill {r : Reg} {b : Byte} {bs : List Byte} {lines : List (List Byte)} (hq : s.inq = [])
    (hc : s.conIn = (b :: bs) :: lines) (hl : lineOk s.params (b :: bs) = true) :
    Effect s (.inp (.reg r)) (((((s.setQueue (bs.map (·.setWidth 16))).setConsole lines).clearOnNewline
      (b.setWidth 16)).setReg r (b.setWidth 16)).advance 2)

theorem effect_of_writeUnary {f : Word → Word} {d : DestSlot} {a : ReadSlot} {i : Instr} (hd : i.dest? = some d)
    (ha : a ∈ i.reads) (hi : ∀ r, d = .reg r → (i = .set (.reg r) a ∧ f = id) ∨ (i = .not (.reg r) a ∧ f = aluNot))
    (h : writeUnary f d a s = .next t) : Effect s i t := by
  rcases writeUnary_next h with ⟨w, rfl | rfl, rfl⟩ | ⟨r, x, rfl, hx, rfl⟩
  · exact .badSlot w (.inl hd)
  · exact .badSlot w (.inr ha)
  · exact .unary f i hx (hi r rfl)

theorem effect_of_writeBinary {f : Word → Word → Word} {d : DestSlot} {a b : ReadSlot} {i : Instr}
    (hd : i.dest? = some d) (ha : i.reads = [a, b])
    (hi : ∀ r, d = .reg r → ∀ y : Word, (i = .eq (.reg r) a b ∧ f = aluEq) ∨ (i = .gt (.reg r) a b ∧ f = aluGt) ∨
      (i = .add (.reg r) a b ∧ f = aluAdd) ∨ (i = .mul (.reg r) a b ∧ f = aluMul) ∨
      (i = .and (.reg r) a b ∧ f = aluAnd) ∨ (i = .or (.reg r) a b ∧ f = aluOr) ∨
      (i = .mod (.reg r) a b ∧ f = aluMod ∧ y ≠ 0))
    (h : writeBinary f d a b s = .next t) : Effect s i t := by
  rcases writeBinary_next h with ⟨w, rfl | rfl | rfl, rfl⟩ | ⟨r, x, y, rfl, hx, hy, rfl⟩
  · exact .badSlot w (.inl hd)
  · exact .badSlot w (.inr (by simp [ha]))
  · exact .badSlot w (.inr (by simp [ha]))
  · exact .binary f i hx hy (hi r rfl y)

/-- The inversion of `exec`: a next state is one of the instruction's effects. -/
theorem effect_of_exec {i : Instr} (h : exec i s = .next t) : Effect s i t := by
  cases i with
  | halt => cases h; exact .halt
  | noop => cases h; exact .noop
  | set d a => exact effect_of_writeUnary rfl (by simp [Instr.reads]) (by rintro r rfl; simp) h
  | not d a => exact effect_of_writeUnary rfl (by simp [Instr.reads]) (by rintro r rfl; simp) h
  | eq d a b => exact effect_of_writeBinary rfl rfl (by rintro r rfl y; simp) h
  | gt d a b => exact effect_of_writeBinary rfl rfl (by rintro r rfl y; simp) h
  | add d a b => exact effect_of_writeBinary rfl rfl (by rintro r rfl y; simp) h
  | mul d a b => exact effect_of_writeBinary rfl rfl (by rintro r rfl y; simp) h
  | and d a b => exact effect_of_writeBinary rfl rfl (by rintro r rfl y; simp) h
  | or d a b => exact effect_of_writeBinary rfl rfl (by rintro r rfl y; simp) h
  | mod d a b =>
    rcases withDest_next h with ⟨w, rfl, rfl⟩ | ⟨r, rfl, h⟩
    · exact .badSlot w (.inl rfl)
    rcases withRead_next h with ⟨w, rfl, rfl⟩ | ⟨x, hx, h⟩
    · exact .badSlot w (.inr (by simp [Instr.reads]))
    rcases withRead_next h with ⟨w, rfl, rfl⟩ | ⟨y, hy, h⟩
    · exact .badSlot w (.inr (by simp [Instr.reads]))
    by_cases hz : y = 0
    · subst hz; rw [if_pos rfl] at h; cases h; exact .divideByZero hy
    · rw [if_neg hz] at h; cases h; exact .binary aluMod _ hx hy (by simpa using hz)
  | jmp a =>
    rcases withRead_next h with ⟨w, rfl, rfl⟩ | ⟨u, hu, h⟩
    · exact .badSlot w (.inr (by simp [Instr.reads]))
    · cases h; exact .jump hu (.inl rfl)
  | jnz cond a =>
    rcases jumpIf_next h with ⟨w, rfl | rfl, rfl⟩ | ⟨c, u, hc, hu, rfl⟩
    · exact .badSlot w (.inr (by simp [Instr.reads]))
    · exact .badSlot w (.inr (by simp [Instr.reads]))
    · by_cases hz : c = 0
      · simp only [hz, bne_self_eq_false, Bool.false_eq_true, if_false]; exact .fallThrough hc (.inl ⟨rfl, hz⟩)
      · simp only [bne_iff_ne, ne_eq, hz, not_false_eq_true, if_true]
        exact .jump hu (.inr (.inl ⟨cond, c, rfl, hc, hz⟩))
  | jz cond a =>
    rcases jumpIf_next h with ⟨w, rfl | rfl, rfl⟩ | ⟨c, u, hc, hu, rfl⟩
    · exact .badSlot w (.inr (by simp [Instr.reads]))
    · exact .badSlot w (.inr (by simp [Instr.reads]))
    · by_cases hz : c = 0
      · subst hz; simp only [beq_self_eq_true, if_true]; exact .jump hu (.inr (.inr ⟨cond, rfl, hc⟩))
      · simp only [beq_iff_eq, hz, if_false]; exact .fallThrough hc (.inr ⟨rfl, hz⟩)
  | rmem d a =>
    rcases withDest_next h with ⟨w, rfl, rfl⟩ | ⟨r, rfl, h⟩
    · exact .badSlot w (.inl rfl)
    rcases withRead_next h with ⟨w, rfl, rfl⟩ | ⟨x, hx, h⟩
    · exact .badSlot w (.inr (by simp [Instr.reads]))
    rcases withMemRead_cases x s fun v => .next ((s.setReg r v).advance 3) with ⟨hm, hk⟩ | ⟨v, hv, hk⟩
    · rw [hk] at h; cases h
      exact .badAddress hx (by unfold Memory.read at hm; split at hm <;> simp_all) (.inl ⟨r, rfl⟩)
    · rw [hk] at h; cases h; exact .load hx hv
  | wmem a b =>
    rcases withRead_next h with ⟨w, rfl, rfl⟩ | ⟨x, hx, h⟩
    · exact .badSlot w (.inr (by simp [Instr.reads]))
    rcases withRead_next h with ⟨w, rfl, rfl⟩ | ⟨y, hy, h⟩
    · exact .badSlot w (.inr (by simp [Instr.reads]))
    rcases withMemWrite_cases x y s fun s' => .next (s'.advance 3) with ⟨hm, hk⟩ | ⟨m, hm, hk⟩
    · rw [hk] at h; cases h
      exact .badAddress hx (by unfold Memory.write at hm; split at hm <;> simp_all) (.inr ⟨b, rfl⟩)
    · rw [hk] at h; cases h; exact .store hx hy hm
  | push a =>
    rcases withRead_next h with ⟨w, rfl, rfl⟩ | ⟨x, hx, h⟩
    · exact .badSlot w (.inr (by simp [Instr.reads]))
    rcases withPush_cases x s fun s' => .next (s'.advance 2) with ⟨hf, hk⟩ | ⟨hf, hk⟩
    · rw [hk] at h; cases h; exact .overflow hf (.inl rfl)
    · rw [hk] at h; cases h; exact .push hx hf
  | call a =>
    rcases withRead_next h with ⟨w, rfl, rfl⟩ | ⟨x, hx, h⟩
    · exact .badSlot w (.inr (by simp [Instr.reads]))
    rcases withPush_cases (s.pc + 2) s fun s' => .next (s'.jump x) with ⟨hf, hk⟩ | ⟨hf, hk⟩
    · rw [hk] at h; cases h; exact .overflow hf (.inr rfl)
    · rw [hk] at h; cases h; exact .call hx hf
  | pop d =>
    rcases withDest_next h with ⟨w, rfl, rfl⟩ | ⟨r, rfl, h1⟩
    · exact .badSlot w (.inl rfl)
    cases hs : s.stack with
    | nil => simp only [hs] at h1; cases h1; exact .underflow hs
    | cons v rest => simp only [hs] at h1; cases h1; exact .pop hs
  | ret =>
    change execRet s = .next t at h
    unfold execRet at h
    split at h
    · cases h; exact .retHalt ‹_›
    · cases h; exact .ret ‹_›
  | out a =>
    rcases withRead_next h with ⟨w, rfl, rfl⟩ | ⟨x, hx, h⟩
    · exact .badSlot w (.inr (by simp [Instr.reads]))
    · cases h; exact .out hx
  | inp d =>
    rcases withDest_next h with ⟨w, rfl, rfl⟩ | ⟨r, rfl, h1⟩
    · exact .badSlot w (.inl rfl)
    rcases withInput_cases s fun c s' => .next (((s'.clearOnNewline c).setReg r c).advance 2) with
      ⟨c, rest, hq, hk⟩ | ⟨_, _, hk⟩ | ⟨_, _, _, _, _, hk⟩ | ⟨b, bs, lines, hq, hc, hl, hk⟩
    · rw [hk] at h1; cases h1; exact .inQueue hq
    · rw [hk] at h1; cases h1
    · rw [hk] at h1; cases h1
    · rw [hk] at h1; cases h1; exact .inRefill hq hc hl

/-- The inversion of `step`: it was Running, and either the decoded instruction was executed or fetching one faulted. -/
theorem step_next (h : step s = .next t) :
    s.status = .running ∧
      ((∃ i rest, decode s.fetchWords = .ok (i, rest) ∧ exec i s = .next t) ∨
       (∃ e, decode s.fetchWords = .error e ∧ t = s.raiseDecode e)) := by
  unfold step at h
  split at h
  · cases h
  · cases h
  · refine ⟨‹_›, ?_⟩
    split at h
    · exact .inl ⟨_, _, ‹_›, h⟩
    · cases h; exact .inr ⟨_, ‹_›, rfl⟩

/-- A step of a running machine whose Words at `pc` decode is the execution of the instruction. -/
theorem step_of_decode {i : Instr} {rest : List Word} (hs : s.status = .running)
    (hd : decode s.fetchWords = .ok (i, rest)) : step s = exec i s := by
  simp [step, hs, hd]

/-- A step of a running machine whose Words at `pc` do not decode takes the fault of the fetch. -/
theorem step_of_decode_error {e : DecodeError} (hs : s.status = .running) (hd : decode s.fetchWords = .error e) :
    step s = .next (s.raiseDecode e) := by
  simp [step, hs, hd]

/-- A fetch that fails raises one of two faults. -/
theorem raiseDecode_eq (s : State) (e : DecodeError) :
    ∃ k info, (k = .addressError ∨ k = .unknownOpcode) ∧ s.raiseDecode e = s.raise k info := by
  cases e with
  | missingWord n => exact ⟨_, _, .inl rfl, rfl⟩
  | unknownOpcode op => exact ⟨_, _, .inr rfl, rfl⟩

/-- Reading an operand answers a next state if what is done with its value always does. -/
theorem withRead_total (a : ReadSlot) (s : State) (k : Word → Result) (hk : ∀ v, ∃ t, k v = .next t) :
    ∃ t, withRead a s k = .next t := by
  rcases withRead_cases a s k with ⟨w, _, h⟩ | ⟨v, _, h⟩
  · exact ⟨_, h⟩
  · rw [h]; exact hk v

/-- The same for naming the destination. -/
theorem withDest_total (d : DestSlot) (s : State) (k : Reg → Result) (hk : ∀ v, ∃ t, k v = .next t) :
    ∃ t, withDest d s k = .next t := by
  rcases withDest_cases d s k with ⟨w, _, h⟩ | ⟨v, _, h⟩
  · exact ⟨_, h⟩
  · rw [h]; exact hk v

end Sys2Proof.Machine
end

