-- ==== Sys2Proof/Laws/Memory.lean ====
section
/-! SUPPORT. The laws of memory: a write is read back, leaves every other Word alone, and keeps the canonical form. -/

namespace Sys2Proof.Machine

/-- Cells in canonical form, all addresses at least `lo` and below `hi`. -/
abbrev cellsOk (lo hi : Nat) (cs : List (Nat × Word)) : Prop :=
  cs.Pairwise (fun c d => c.1 < d.1) ∧ ∀ c ∈ cs, lo ≤ c.1 ∧ c.1 < hi ∧ c.2 ≠ 0

theorem cellsGet_of_not_listed {cs : List (Nat × Word)} {a : Nat} (h : ∀ c ∈ cs, c.1 ≠ a) : cellsGet cs a = 0 := by
  induction cs with
  | nil => rfl
  | cons c cs ih =>
    have hc := h c (by simp)
    simp only [cellsGet, if_neg (Ne.symm hc)]
    exact ih fun d hd => h d (by simp [hd])

theorem cellsGet_cellsSet_ne {a b : Nat} (h : b ≠ a) (cs : List (Nat × Word)) (v : Word) :
    cellsGet (cellsSet cs a v) b = cellsGet cs b := by
  induction cs with
  | nil => unfold cellsSet; split <;> simp [cellsGet, h]
  | cons c cs ih =>
    obtain ⟨k, w⟩ := c
    unfold cellsSet
    split
    · split <;> simp [cellsGet, h]
    · split
      · subst_vars; split <;> simp [cellsGet, h]
      · simp only [cellsGet, ih]

theorem cellsGet_cellsSet_self {lo hi : Nat} {cs : List (Nat × Word)} (hcs : cellsOk lo hi cs) (a : Nat) (v : Word) :
    cellsGet (cellsSet cs a v) a = v := by
  induction cs with
  | nil => unfold cellsSet; split <;> simp_all [cellsGet]
  | cons c cs ih =>
    obtain ⟨k, w⟩ := c
    obtain ⟨hp, hc⟩ := hcs
    have hlt := (List.pairwise_cons.1 hp).1
    have habs : a ≤ k → cellsGet cs a = 0 := fun hle =>
      cellsGet_of_not_listed fun d hd => by have := hlt d hd; simp only at this; omega
    unfold cellsSet
    split
    · split
      · subst_vars; rw [cellsGet, if_neg (by omega), habs (by omega)]
      · simp [cellsGet]
    · split
      · split
        · subst_vars; exact habs (Nat.le_refl _)
        · simp [cellsGet]
      · rename_i hne
        simp only [cellsGet, if_neg hne]
        exact ih ⟨hp.tail, fun d hd => hc d (by simp [hd])⟩

/-- Whatever is listed after a write was listed before it or is the Word written. -/
theorem mem_cellsSet {cs : List (Nat × Word)} {a : Nat} {v : Word} {c : Nat × Word} (h : c ∈ cellsSet cs a v) :
    c ∈ cs ∨ (c = (a, v) ∧ v ≠ 0) := by
  induction cs with
  | nil => unfold cellsSet at h; split at h <;> simp_all
  | cons d cs ih =>
    obtain ⟨k, w⟩ := d
    unfold cellsSet at h
    split at h
    · split at h
      · exact .inl h
      · rcases List.mem_cons.1 h with h | h
        · exact .inr ⟨h, ‹_›⟩
        · exact .inl h
    · split at h
      · split at h
        · exact .inl (List.mem_cons_of_mem _ h)
        · rcases List.mem_cons.1 h with h | h
          · exact .inr ⟨h, ‹_›⟩
          · exact .inl (List.mem_cons_of_mem _ h)
      · rcases List.mem_cons.1 h with h | h
        · exact .inl (by simp [h])
        · exact (ih h).imp_left (List.mem_cons_of_mem _)

theorem cellsSet_pairwise {cs : List (Nat × Word)} (h : cs.Pairwise fun c d => c.1 < d.1) (a : Nat) (v : Word) :
    (cellsSet cs a v).Pairwise fun c d => c.1 < d.1 := by
  induction cs with
  | nil => unfold cellsSet; split <;> simp
  | cons c cs ih =>
    obtain ⟨k, w⟩ := c
    have hk := (List.pairwise_cons.1 h).1
    unfold cellsSet
    split
    · rename_i hlt
      split
      · exact h
      · refine List.pairwise_cons.2 ⟨fun d hd => ?_, h⟩
        rcases List.mem_cons.1 hd with rfl | hd
        · exact hlt
        · exact Nat.lt_trans hlt (hk d hd)
    · rename_i hnlt
      split
      · rename_i heq
        split
        · exact h.tail
        · exact List.pairwise_cons.2 ⟨fun d hd => by rw [heq]; exact hk d hd, h.tail⟩
      · rename_i hne
        refine List.pairwise_cons.2 ⟨fun d hd => ?_, ih h.tail⟩
        rcases mem_cellsSet hd with hd | ⟨rfl, _⟩
        · exact hk d hd
        · show k < a; omega

/-- What a write answers, in bounds. -/
theorem Memory.write_some {m m' : Memory} {a : Nat} {v : Word} (h : m.write a v = some m') :
    a < m.size ∧ m' = { m with cells := cellsSet m.cells a v } := by
  unfold Memory.write at h
  split at h
  · exact ⟨‹_›, (Option.some.inj h).symm⟩
  · cases h

theorem Memory.write_eq_none_iff {m : Memory} {a : Nat} {v : Word} : m.write a v = none ↔ m.size ≤ a := by
  unfold Memory.write; split <;> simp <;> omega

theorem Memory.read_eq_none_iff {m : Memory} {a : Nat} : m.read a = none ↔ m.size ≤ a := by
  unfold Memory.read; split <;> simp <;> omega

theorem Memory.read_lt {m : Memory} {a : Nat} {w : Word} (h : m.read a = some w) : a < m.size := by
  unfold Memory.read at h; split at h
  · assumption
  · cases h

theorem Memory.write_size {m m' : Memory} {a : Nat} {v : Word} (h : m.write a v = some m') : m'.size = m.size := by
  rw [(Memory.write_some h).2]

/-- A write leaves every other Word alone, whatever the form of the cells. -/
theorem Memory.read_write_ne {m m' : Memory} {a b : Nat} {v : Word} (h : m.write a v = some m') (hb : b ≠ a) :
    m'.read b = m.read b := by
  rw [(Memory.write_some h).2]; simp only [Memory.read, cellsGet_cellsSet_ne hb]

theorem Memory.wf.cellsOk {m : Memory} (h : m.wf) : cellsOk 0 m.size m.cells :=
  ⟨h.2.1, fun c hc => ⟨Nat.zero_le _, h.2.2 c hc⟩⟩

/-- A write is read back. -/
theorem Memory.read_write_self {m m' : Memory} {a : Nat} {v : Word} (hm : m.wf) (h : m.write a v = some m') :
    m'.read a = some v := by
  obtain ⟨ha, rfl⟩ := Memory.write_some h
  simp only [Memory.read, if_pos ha, cellsGet_cellsSet_self hm.cellsOk]

/-- A write keeps the canonical form. -/
theorem Memory.write_wf {m m' : Memory} {a : Nat} {v : Word} (hm : m.wf) (h : m.write a v = some m') : m'.wf := by
  obtain ⟨ha, rfl⟩ := Memory.write_some h
  refine ⟨hm.1, cellsSet_pairwise hm.2.1 a v, fun c hc => ?_⟩
  rcases mem_cellsSet hc with hc | ⟨rfl, hv⟩
  · exact hm.2.2 c hc
  · exact ⟨ha, hv⟩

/-- Placing Words keeps the canonical form of the cells, and the legal size if they end inside 32768 Words. -/
theorem Memory.place_wf (ws : List Word) {m : Memory} {a : Nat} (hm : m.wf) (h : a + ws.length ≤ 32768) :
    (m.place a ws).wf := by
  induction ws generalizing m a with
  | nil => exact hm
  | cons w ws ih =>
    simp only [List.length_cons] at h
    refine ih ⟨?_, cellsSet_pairwise hm.2.1 a w, fun c hc => ?_⟩ (by omega)
    · have := hm.1; show max m.size (a + 1) ≤ 32768; omega
    · show c.1 < max m.size (a + 1) ∧ c.2 ≠ 0
      rcases mem_cellsSet hc with hc | ⟨rfl, hv⟩
      · have := hm.2.2 c hc; exact ⟨by omega, this.2⟩
      · exact ⟨by omega, hv⟩

theorem cellsOfImage_ok (a : Nat) (image : List Word) : cellsOk a (a + image.length) (cellsOfImage a image) := by
  induction image generalizing a with
  | nil => exact ⟨List.Pairwise.nil, fun c h => by cases h⟩
  | cons w ws ih =>
    obtain ⟨hp, hc⟩ := ih (a + 1)
    have hc' : ∀ c ∈ cellsOfImage (a + 1) ws, a + 1 ≤ c.1 ∧ c.1 < a + (w :: ws).length ∧ c.2 ≠ 0 := fun c h => by
      have := hc c h; simp only [List.length_cons]; exact ⟨this.1, by omega, this.2.2⟩
    unfold cellsOfImage
    split
    · exact ⟨hp, fun c h => ⟨by have := hc' c h; omega, (hc' c h).2⟩⟩
    · refine ⟨List.pairwise_cons.2 ⟨fun d hd => (hc' d hd).1, hp⟩, fun c h => ?_⟩
      rcases List.mem_cons.1 h with rfl | h
      · exact ⟨Nat.le_refl _, by simp, ‹_›⟩
      · exact ⟨by have := hc' c h; omega, (hc' c h).2⟩

theorem cellsGet_cellsOfImage (a : Nat) (image : List Word) (i : Nat) (h : i < image.length) :
    cellsGet (cellsOfImage a image) (a + i) = image[i] := by
  induction image generalizing a i with
  | nil => simp at h
  | cons w ws ih =>
    cases i with
    | zero =>
      unfold cellsOfImage
      split
      · subst_vars
        exact cellsGet_of_not_listed fun c hc => by have := (cellsOfImage_ok (a + 1) ws).2 c hc; omega
      · simp [cellsGet]
    | succ i =>
      have := ih (a + 1) i (by simpa using h)
      rw [show a + 1 + i = a + (i + 1) by omega] at this
      unfold cellsOfImage
      split
      · simpa using this
      · simp only [cellsGet, if_neg (show ¬ a + (i + 1) = a by omega)]; simpa using this

end Sys2Proof.Machine
end

