-- ==== Sys2Proof/Laws/Fetch.lean ====
section
/-! SUPPORT. What the fetch window holds. -/

namespace Sys2Proof.Machine

/-- If memory holds the Words `ws` from `a` on, a window long enough begins with them. -/
theorem Memory.window_eq_append (m : Memory) (ws : List Word) (a n : Nat) (hn : ws.length ≤ n)
    (h : ∀ j < ws.length, m.read (a + j) = ws[j]?) : ∃ rest, m.window a n = ws ++ rest := by
  induction ws generalizing a n with
  | nil => exact ⟨_, rfl⟩
  | cons w ws ih =>
    obtain ⟨n, rfl⟩ : ∃ k, n = k + 1 := ⟨n - 1, by simp at hn; omega⟩
    have h0 := h 0 (by simp)
    simp only [Nat.add_zero, List.getElem?_cons_zero] at h0
    obtain ⟨rest, hr⟩ := ih (a + 1) n (by simpa using hn) (fun j hj => by
      have := h (j + 1) (by simpa using hj)
      rw [show a + 1 + j = a + (j + 1) by omega, this]; simp)
    exact ⟨rest, by simp only [Memory.window, h0, hr, List.cons_append]⟩

/-- If memory ends after the first `k` of the Words `ws`, the window is those. -/
theorem Memory.window_eq_take (m : Memory) (ws : List Word) (a n k : Nat) (hk : k < n) (hw : k < ws.length)
    (h : ∀ j < k, m.read (a + j) = ws[j]?) (hn : m.read (a + k) = none) : m.window a n = ws.take k := by
  induction k generalizing a n ws with
  | zero =>
    obtain ⟨n, rfl⟩ : ∃ k, n = k + 1 := ⟨n - 1, by omega⟩
    simp only [Nat.add_zero] at hn
    simp [Memory.window, hn]
  | succ k ih =>
    obtain ⟨n, rfl⟩ : ∃ k, n = k + 1 := ⟨n - 1, by omega⟩
    cases ws with
    | nil => simp at hw
    | cons w ws =>
      have h0 := h 0 (by omega)
      simp only [Nat.add_zero, List.getElem?_cons_zero] at h0
      simp only [Memory.window, h0, List.take_succ_cons]
      congr
      exact ih ws (a + 1) n (by omega) (by simpa using hw) (fun j hj => by
        have := h (j + 1) (by omega)
        rw [show a + 1 + j = a + (j + 1) by omega, this]; simp) (by rw [← hn]; congr 1; omega)

/-- A window that is cut short ends where memory does. -/
theorem Memory.window_short {m : Memory} {a n : Nat} (h : (m.window a n).length < n) : m.size ≤ a + (m.window a n).length := by
  induction n generalizing a with
  | zero => simp at h
  | succ n ih =>
    cases hr : m.read a with
    | none => simp only [Memory.window, hr, List.length_nil]; exact Memory.read_eq_none_iff.1 hr
    | some w =>
      simp only [Memory.window, hr, List.length_cons] at h ⊢
      have := ih (a := a + 1) (by omega); omega

/-- An opcode fetch out of bounds fetches nothing. -/
theorem State.fetchWords_of_out_of_bounds {s : State} (h : s.mem.size ≤ s.pc.toNat) : s.fetchWords = [] := by
  simp only [State.fetchWords, Memory.window, Memory.read_eq_none_iff.2 h]

/-- The memory of an image of legal size is in canonical form. -/
theorem Memory.ofImage_wf (image : List Word) (h : image.length ≤ 32768) : (Memory.ofImage image).wf := by
  have := cellsOfImage_ok 0 image
  refine ⟨h, this.1, fun c hc => ?_⟩
  have := this.2 c hc
  exact ⟨by simpa [Memory.ofImage] using this.2.1, this.2.2⟩

end Sys2Proof.Machine
end

