-- ==== Sys2Proof/Laws/PerInstr.lean ====
section
/-! SUPPORT. A family of statements made per instruction: the shape of its encoding (30_encoding.md R70, R71, R78). -/

/-- An instruction is its opcode Word, below 22, and as many operand Words as its arity, 0 to 3 (R70, R78). -/
def Sys2Proof.Laws.Shape.Statement (i : Sys2Proof.Instr) : Prop :=
  (Sys2Proof.encode i).length = 1 + i.arity ∧ i.arity ≤ 3 ∧ (Sys2Proof.encode i).head? = some i.opcode ∧
    i.opcode.toNat < 22

open Sys2Proof

/-- The length and the head of an encoding are as the shape says for every instruction. -/
theorem Sys2Proof.Laws.shape_of_opcode (i : Instr) (ha : i.arity ≤ 3) (ho : i.opcode.toNat < 22) :
    Sys2Proof.Laws.Shape.Statement i :=
  ⟨by simp only [encode, Instr.arity, List.length_cons, List.length_append, List.length_map]; omega, ha, rfl, ho⟩

theorem Sys2Proof.Laws.Shape.halt : Sys2Proof.Laws.Shape.Statement .halt :=
  Sys2Proof.Laws.shape_of_opcode _ (Nat.le_of_ble_eq_true rfl) (Nat.le_of_ble_eq_true rfl)

theorem Sys2Proof.Laws.Shape.set (dest : DestSlot) (a : ReadSlot) : Sys2Proof.Laws.Shape.Statement (.set dest a) :=
  Sys2Proof.Laws.shape_of_opcode _ (Nat.le_of_ble_eq_true rfl) (Nat.le_of_ble_eq_true rfl)

theorem Sys2Proof.Laws.Shape.push (a : ReadSlot) : Sys2Proof.Laws.Shape.Statement (.push a) :=
  Sys2Proof.Laws.shape_of_opcode _ (Nat.le_of_ble_eq_true rfl) (Nat.le_of_ble_eq_true rfl)

theorem Sys2Proof.Laws.Shape.pop (dest : DestSlot) : Sys2Proof.Laws.Shape.Statement (.pop dest) :=
  Sys2Proof.Laws.shape_of_opcode _ (Nat.le_of_ble_eq_true rfl) (Nat.le_of_ble_eq_true rfl)

theorem Sys2Proof.Laws.Shape.eq (dest : DestSlot) (a b : ReadSlot) : Sys2Proof.Laws.Shape.Statement (.eq dest a b) :=
  Sys2Proof.Laws.shape_of_opcode _ (Nat.le_of_ble_eq_true rfl) (Nat.le_of_ble_eq_true rfl)

theorem Sys2Proof.Laws.Shape.gt (dest : DestSlot) (a b : ReadSlot) : Sys2Proof.Laws.Shape.Statement (.gt dest a b) :=
  Sys2Proof.Laws.shape_of_opcode _ (Nat.le_of_ble_eq_true rfl) (Nat.le_of_ble_eq_true rfl)

theorem Sys2Proof.Laws.Shape.jmp (a : ReadSlot) : Sys2Proof.Laws.Shape.Statement (.jmp a) :=
  Sys2Proof.Laws.shape_of_opcode _ (Nat.le_of_ble_eq_true rfl) (Nat.le_of_ble_eq_true rfl)

theorem Sys2Proof.Laws.Shape.jnz (cond a : ReadSlot) : Sys2Proof.Laws.Shape.Statement (.jnz cond a) :=
  Sys2Proof.Laws.shape_of_opcode _ (Nat.le_of_ble_eq_true rfl) (Nat.le_of_ble_eq_true rfl)

theorem Sys2Proof.Laws.Shape.jz (cond a : ReadSlot) : Sys2Proof.Laws.Shape.Statement (.jz cond a) :=
  Sys2Proof.Laws.shape_of_opcode _ (Nat.le_of_ble_eq_true rfl) (Nat.le_of_ble_eq_true rfl)

theorem Sys2Proof.Laws.Shape.add (dest : DestSlot) (a b : ReadSlot) : Sys2Proof.Laws.Shape.Statement (.add dest a b) :=
  Sys2Proof.Laws.shape_of_opcode _ (Nat.le_of_ble_eq_true rfl) (Nat.le_of_ble_eq_true rfl)

theorem Sys2Proof.Laws.Shape.mul (dest : DestSlot) (a b : ReadSlot) : Sys2Proof.Laws.Shape.Statement (.mul dest a b) :=
  Sys2Proof.Laws.shape_of_opcode _ (Nat.le_of_ble_eq_true rfl) (Nat.le_of_ble_eq_true rfl)

theorem Sys2Proof.Laws.Shape.mod (dest : DestSlot) (a b : ReadSlot) : Sys2Proof.Laws.Shape.Statement (.mod dest a b) :=
  Sys2Proof.Laws.shape_of_opcode _ (Nat.le_of_ble_eq_true rfl) (Nat.le_of_ble_eq_true rfl)

theorem Sys2Proof.Laws.Shape.and (dest : DestSlot) (a b : ReadSlot) : Sys2Proof.Laws.Shape.Statement (.and dest a b) :=
  Sys2Proof.Laws.shape_of_opcode _ (Nat.le_of_ble_eq_true rfl) (Nat.le_of_ble_eq_true rfl)

theorem Sys2Proof.Laws.Shape.or (dest : DestSlot) (a b : ReadSlot) : Sys2Proof.Laws.Shape.Statement (.or dest a b) :=
  Sys2Proof.Laws.shape_of_opcode _ (Nat.le_of_ble_eq_true rfl) (Nat.le_of_ble_eq_true rfl)

theorem Sys2Proof.Laws.Shape.not (dest : DestSlot) (a : ReadSlot) : Sys2Proof.Laws.Shape.Statement (.not dest a) :=
  Sys2Proof.Laws.shape_of_opcode _ (Nat.le_of_ble_eq_true rfl) (Nat.le_of_ble_eq_true rfl)

theorem Sys2Proof.Laws.Shape.rmem (dest : DestSlot) (a : ReadSlot) : Sys2Proof.Laws.Shape.Statement (.rmem dest a) :=
  Sys2Proof.Laws.shape_of_opcode _ (Nat.le_of_ble_eq_true rfl) (Nat.le_of_ble_eq_true rfl)

theorem Sys2Proof.Laws.Shape.wmem (a b : ReadSlot) : Sys2Proof.Laws.Shape.Statement (.wmem a b) :=
  Sys2Proof.Laws.shape_of_opcode _ (Nat.le_of_ble_eq_true rfl) (Nat.le_of_ble_eq_true rfl)

theorem Sys2Proof.Laws.Shape.call (a : ReadSlot) : Sys2Proof.Laws.Shape.Statement (.call a) :=
  Sys2Proof.Laws.shape_of_opcode _ (Nat.le_of_ble_eq_true rfl) (Nat.le_of_ble_eq_true rfl)

theorem Sys2Proof.Laws.Shape.ret : Sys2Proof.Laws.Shape.Statement .ret :=
  Sys2Proof.Laws.shape_of_opcode _ (Nat.le_of_ble_eq_true rfl) (Nat.le_of_ble_eq_true rfl)

theorem Sys2Proof.Laws.Shape.out (a : ReadSlot) : Sys2Proof.Laws.Shape.Statement (.out a) :=
  Sys2Proof.Laws.shape_of_opcode _ (Nat.le_of_ble_eq_true rfl) (Nat.le_of_ble_eq_true rfl)

theorem Sys2Proof.Laws.Shape.inp (dest : DestSlot) : Sys2Proof.Laws.Shape.Statement (.inp dest) :=
  Sys2Proof.Laws.shape_of_opcode _ (Nat.le_of_ble_eq_true rfl) (Nat.le_of_ble_eq_true rfl)

theorem Sys2Proof.Laws.Shape.noop : Sys2Proof.Laws.Shape.Statement .noop :=
  Sys2Proof.Laws.shape_of_opcode _ (Nat.le_of_ble_eq_true rfl) (Nat.le_of_ble_eq_true rfl)
end

