-- ==== Sys2Proof/Laws/State.lean ====
section
/-! SUPPORT. One lemma per field per update of the state, so that no proof unfolds a record update. -/

namespace Sys2Proof.Machine

variable (s : State)

@[simp] theorem State.setReg_regs (r : Reg) (v : Word) : (s.setReg r v).regs = s.regs.set r v := rfl
@[simp] theorem State.setReg_pc (r : Reg) (v : Word) : (s.setReg r v).pc = s.pc := rfl
@[simp] theorem State.setReg_mem (r : Reg) (v : Word) : (s.setReg r v).mem = s.mem := rfl
@[simp] theorem State.setReg_stack (r : Reg) (v : Word) : (s.setReg r v).stack = s.stack := rfl
@[simp] theorem State.setReg_inq (r : Reg) (v : Word) : (s.setReg r v).inq = s.inq := rfl
@[simp] theorem State.setReg_status (r : Reg) (v : Word) : (s.setReg r v).status = s.status := rfl
@[simp] theorem State.setReg_faultRec (r : Reg) (v : Word) : (s.setReg r v).faultRec = s.faultRec := rfl
@[simp] theorem State.setReg_out (r : Reg) (v : Word) : (s.setReg r v).out = s.out := rfl
@[simp] theorem State.setReg_params (r : Reg) (v : Word) : (s.setReg r v).params = s.params := rfl
@[simp] theorem State.setReg_conIn (r : Reg) (v : Word) : (s.setReg r v).conIn = s.conIn := rfl

@[simp] theorem State.jump_regs (u : Word) : (s.jump u).regs = s.regs := rfl
@[simp] theorem State.jump_pc (u : Word) : (s.jump u).pc = u := rfl
@[simp] theorem State.jump_mem (u : Word) : (s.jump u).mem = s.mem := rfl
@[simp] theorem State.jump_stack (u : Word) : (s.jump u).stack = s.stack := rfl
@[simp] theorem State.jump_inq (u : Word) : (s.jump u).inq = s.inq := rfl
@[simp] theorem State.jump_status (u : Word) : (s.jump u).status = s.status := rfl
@[simp] theorem State.jump_faultRec (u : Word) : (s.jump u).faultRec = s.faultRec := rfl
@[simp] theorem State.jump_out (u : Word) : (s.jump u).out = s.out := rfl
@[simp] theorem State.jump_params (u : Word) : (s.jump u).params = s.params := rfl
@[simp] theorem State.jump_conIn (u : Word) : (s.jump u).conIn = s.conIn := rfl

@[simp] theorem State.reg_jump (u : Word) (i : Reg) : (s.jump u).reg i = s.reg i := rfl

@[simp] theorem State.advance_regs (n : Nat) : (s.advance n).regs = s.regs := rfl
@[simp] theorem State.advance_pc (n : Nat) : (s.advance n).pc = s.pc + BitVec.ofNat 16 n := rfl
@[simp] theorem State.advance_mem (n : Nat) : (s.advance n).mem = s.mem := rfl
@[simp] theorem State.advance_stack (n : Nat) : (s.advance n).stack = s.stack := rfl
@[simp] theorem State.advance_inq (n : Nat) : (s.advance n).inq = s.inq := rfl
@[simp] theorem State.advance_status (n : Nat) : (s.advance n).status = s.status := rfl
@[simp] theorem State.advance_faultRec (n : Nat) : (s.advance n).faultRec = s.faultRec := rfl
@[simp] theorem State.advance_out (n : Nat) : (s.advance n).out = s.out := rfl
@[simp] theorem State.advance_params (n : Nat) : (s.advance n).params = s.params := rfl
@[simp] theorem State.advance_conIn (n : Nat) : (s.advance n).conIn = s.conIn := rfl

@[simp] theorem State.reg_advance (n : Nat) (i : Reg) : (s.advance n).reg i = s.reg i := rfl

@[simp] theorem State.setMem_regs (m : Memory) : (s.setMem m).regs = s.regs := rfl
@[simp] theorem State.setMem_pc (m : Memory) : (s.setMem m).pc = s.pc := rfl
@[simp] theorem State.setMem_mem (m : Memory) : (s.setMem m).mem = m := rfl
@[simp] theorem State.setMem_stack (m : Memory) : (s.setMem m).stack = s.stack := rfl
@[simp] theorem State.setMem_inq (m : Memory) : (s.setMem m).inq = s.inq := rfl
@[simp] theorem State.setMem_status (m : Memory) : (s.setMem m).status = s.status := rfl
@[simp] theorem State.setMem_faultRec (m : Memory) : (s.setMem m).faultRec = s.faultRec := rfl
@[simp] theorem State.setMem_out (m : Memory) : (s.setMem m).out = s.out := rfl
@[simp] theorem State.setMem_params (m : Memory) : (s.setMem m).params = s.params := rfl
@[simp] theorem State.setMem_conIn (m : Memory) : (s.setMem m).conIn = s.conIn := rfl

@[simp] theorem State.reg_setMem (m : Memory) (i : Reg) : (s.setMem m).reg i = s.reg i := rfl

@[simp] theorem State.setStack_regs (l : List Word) : (s.setStack l).regs = s.regs := rfl
@[simp] theorem State.setStack_pc (l : List Word) : (s.setStack l).pc = s.pc := rfl
@[simp] theorem State.setStack_mem (l : List Word) : (s.setStack l).mem = s.mem := rfl
@[simp] theorem State.setStack_stack (l : List Word) : (s.setStack l).stack = l := rfl
@[simp] theorem State.setStack_inq (l : List Word) : (s.setStack l).inq = s.inq := rfl
@[simp] theorem State.setStack_status (l : List Word) : (s.setStack l).status = s.status := rfl
@[simp] theorem State.setStack_faultRec (l : List Word) : (s.setStack l).faultRec = s.faultRec := rfl
@[simp] theorem State.setStack_out (l : List Word) : (s.setStack l).out = s.out := rfl
@[simp] theorem State.setStack_params (l : List Word) : (s.setStack l).params = s.params := rfl
@[simp] theorem State.setStack_conIn (l : List Word) : (s.setStack l).conIn = s.conIn := rfl

@[simp] theorem State.reg_setStack (l : List Word) (i : Reg) : (s.setStack l).reg i = s.reg i := rfl

@[simp] theorem State.setQueue_regs (q : List Word) : (s.setQueue q).regs = s.regs := rfl
@[simp] theorem State.setQueue_pc (q : List Word) : (s.setQueue q).pc = s.pc := rfl
@[simp] theorem State.setQueue_mem (q : List Word) : (s.setQueue q).mem = s.mem := rfl
@[simp] theorem State.setQueue_stack (q : List Word) : (s.setQueue q).stack = s.stack := rfl
@[simp] theorem State.setQueue_inq (q : List Word) : (s.setQueue q).inq = q := rfl
@[simp] theorem State.setQueue_status (q : List Word) : (s.setQueue q).status = s.status := rfl
@[simp] theorem State.setQueue_faultRec (q : List Word) : (s.setQueue q).faultRec = s.faultRec := rfl
@[simp] theorem State.setQueue_out (q : List Word) : (s.setQueue q).out = s.out := rfl
@[simp] theorem State.setQueue_params (q : List Word) : (s.setQueue q).params = s.params := rfl
@[simp] theorem State.setQueue_conIn (q : List Word) : (s.setQueue q).conIn = s.conIn := rfl

@[simp] theorem State.reg_setQueue (q : List Word) (i : Reg) : (s.setQueue q).reg i = s.reg i := rfl

@[simp] theorem State.setConsole_regs (ls : List (List Byte)) : (s.setConsole ls).regs = s.regs := rfl
@[simp] theorem State.setConsole_pc (ls : List (List Byte)) : (s.setConsole ls).pc = s.pc := rfl
@[simp] theorem State.setConsole_mem (ls : List (List Byte)) : (s.setConsole ls).mem = s.mem := rfl
@[simp] theorem State.setConsole_stack (ls : List (List Byte)) : (s.setConsole ls).stack = s.stack := rfl
@[simp] theorem State.setConsole_inq (ls : List (List Byte)) : (s.setConsole ls).inq = s.inq := rfl
@[simp] theorem State.setConsole_status (ls : List (List Byte)) : (s.setConsole ls).status = s.status := rfl
@[simp] theorem State.setConsole_faultRec (ls : List (List Byte)) : (s.setConsole ls).faultRec = s.faultRec := rfl
@[simp] theorem State.setConsole_out (ls : List (List Byte)) : (s.setConsole ls).out = s.out := rfl
@[simp] theorem State.setConsole_params (ls : List (List Byte)) : (s.setConsole ls).params = s.params := rfl
@[simp] theorem State.setConsole_conIn (ls : List (List Byte)) : (s.setConsole ls).conIn = ls := rfl

@[simp] theorem State.reg_setConsole (ls : List (List Byte)) (i : Reg) : (s.setConsole ls).reg i = s.reg i := rfl

@[simp] theorem State.emit_regs (b : Byte) : (s.emit b).regs = s.regs := rfl
@[simp] theorem State.emit_pc (b : Byte) : (s.emit b).pc = s.pc := rfl
@[simp] theorem State.emit_mem (b : Byte) : (s.emit b).mem = s.mem := rfl
@[simp] theorem State.emit_stack (b : Byte) : (s.emit b).stack = s.stack := rfl
@[simp] theorem State.emit_inq (b : Byte) : (s.emit b).inq = s.inq := rfl
@[simp] theorem State.emit_status (b : Byte) : (s.emit b).status = s.status := rfl
@[simp] theorem State.emit_faultRec (b : Byte) : (s.emit b).faultRec = s.faultRec := rfl
@[simp] theorem State.emit_out (b : Byte) : (s.emit b).out = s.out ++ [b] := rfl
@[simp] theorem State.emit_params (b : Byte) : (s.emit b).params = s.params := rfl
@[simp] theorem State.emit_conIn (b : Byte) : (s.emit b).conIn = s.conIn := rfl

@[simp] theorem State.reg_emit (b : Byte) (i : Reg) : (s.emit b).reg i = s.reg i := rfl

@[simp] theorem State.raise_regs (k : FaultKind) (info : Word) : (s.raise k info).regs = s.regs := rfl
@[simp] theorem State.raise_pc (k : FaultKind) (info : Word) : (s.raise k info).pc = s.pc := rfl
@[simp] theorem State.raise_mem (k : FaultKind) (info : Word) : (s.raise k info).mem = s.mem := rfl
@[simp] theorem State.raise_stack (k : FaultKind) (info : Word) : (s.raise k info).stack = s.stack := rfl
@[simp] theorem State.raise_inq (k : FaultKind) (info : Word) : (s.raise k info).inq = s.inq := rfl
@[simp] theorem State.raise_status (k : FaultKind) (info : Word) : (s.raise k info).status = .faulted k := rfl
@[simp] theorem State.raise_faultRec (k : FaultKind) (info : Word) : (s.raise k info).faultRec = some { pc := s.pc, info := info } := rfl
@[simp] theorem State.raise_out (k : FaultKind) (info : Word) : (s.raise k info).out = s.out := rfl
@[simp] theorem State.raise_params (k : FaultKind) (info : Word) : (s.raise k info).params = s.params := rfl
@[simp] theorem State.raise_conIn (k : FaultKind) (info : Word) : (s.raise k info).conIn = s.conIn := rfl

@[simp] theorem State.reg_raise (k : FaultKind) (info : Word) (i : Reg) : (s.raise k info).reg i = s.reg i := rfl

@[simp] theorem State.halt_regs : s.halt.regs = s.regs := rfl
@[simp] theorem State.halt_pc : s.halt.pc = s.pc := rfl
@[simp] theorem State.halt_mem : s.halt.mem = s.mem := rfl
@[simp] theorem State.halt_stack : s.halt.stack = s.stack := rfl
@[simp] theorem State.halt_inq : s.halt.inq = s.inq := rfl
@[simp] theorem State.halt_status : s.halt.status = .halted := rfl
@[simp] theorem State.halt_faultRec : s.halt.faultRec = s.faultRec := rfl
@[simp] theorem State.halt_out : s.halt.out = s.out := rfl
@[simp] theorem State.halt_params : s.halt.params = s.params := rfl
@[simp] theorem State.halt_conIn : s.halt.conIn = s.conIn := rfl

@[simp] theorem State.reg_halt (i : Reg) : s.halt.reg i = s.reg i := rfl

/-- A register write is read back from that register and leaves every other register alone. -/
theorem State.reg_setReg (r i : Reg) (v : Word) : (s.setReg r v).reg i = if i = r then v else s.reg i := by
  simp only [State.reg, State.setReg, Fin.getElem_fin, Vector.getElem_set, Fin.ext_iff, eq_comm]

@[simp] theorem State.reg_setReg_self (r : Reg) (v : Word) : (s.setReg r v).reg r = v := by
  simp [State.reg_setReg]

theorem State.reg_setReg_ne {r i : Reg} (v : Word) (h : i ≠ r) : (s.setReg r v).reg i = s.reg i := by
  simp [State.reg_setReg, h]

/-! Reset with an image and parameters. -/

@[simp] theorem State.boot_regs (image : List Word) (p : Params) : (State.boot image p).regs = #v[0, 0, 0, 0, 0, 0, 0, 0] := rfl
@[simp] theorem State.boot_pc (image : List Word) (p : Params) : (State.boot image p).pc = 0 := rfl
@[simp] theorem State.boot_mem (image : List Word) (p : Params) : (State.boot image p).mem = Memory.ofImage image := rfl
@[simp] theorem State.boot_stack (image : List Word) (p : Params) : (State.boot image p).stack = [] := rfl
@[simp] theorem State.boot_inq (image : List Word) (p : Params) : (State.boot image p).inq = [] := rfl
@[simp] theorem State.boot_status (image : List Word) (p : Params) : (State.boot image p).status = .running := rfl
@[simp] theorem State.boot_faultRec (image : List Word) (p : Params) : (State.boot image p).faultRec = none := rfl
@[simp] theorem State.boot_out (image : List Word) (p : Params) : (State.boot image p).out = [] := rfl
@[simp] theorem State.boot_params (image : List Word) (p : Params) : (State.boot image p).params = p := rfl
@[simp] theorem State.boot_conIn (image : List Word) (p : Params) : (State.boot image p).conIn = [] := rfl

end Sys2Proof.Machine
end

