-- ==== Sys2Proof/Tests/Slice0.lean ====
section
/-! SUPPORT. The model's own tests. The expected values are the spec's: the vectors of 95_test_vectors.md, the examples in
the instruction rules, or words written out from the encoding rules. A theorem witness_<statement> meets the
hypotheses of that statement, at the ends of their ranges. -/

namespace Sys2Proof.Tests

open Sys2Proof Sys2Proof.Machine

/-! Helpers. -/

/-- Reset with an image, then two registers set by hand. -/
def withRegs (image : List Word) (r0 r1 : Word) : State :=
  { State.boot image with regs := #v[r0, r1, 0, 0, 0, 0, 0, 0] }

/-- The next state, if there is one. -/
def after : Result → Option State
  | .next s => some s
  | .fault _ | .refused _ => none

/-- A register and `pc` after a step. -/
def regPc (r : Reg) (o : Result) : Option (Word × Word) := (after o).map fun s => (s.reg r, s.pc)

/-- Status and fault record after a step. -/
def faultOf (o : Result) : Option (Status × Option FaultRecord) := (after o).map fun s => (s.status, s.faultRec)

/-- A fault of the kind with its record. -/
def faulted (k : FaultKind) (pc info : Word) : Option (Status × Option FaultRecord) :=
  some (.faulted k, some { pc := pc, info := info })

/-! WellFormed refuses an ill-formed term, by each of its checks. -/

theorem test_wellFormed_accepts : (Instr.add (.reg 7) (.lit 32767) (.reg 0)).wellFormed = true := by decide
theorem test_wellFormed_refuses_destination : (Instr.pop (.invalid 5)).wellFormed = false := by decide
theorem test_wellFormed_refuses_first_read : (Instr.jnz (.invalid 32776) (.lit 0)).wellFormed = false := by decide
theorem test_wellFormed_refuses_last_read : (Instr.add (.reg 0) (.lit 0) (.invalid 65535)).wellFormed = false := by decide
theorem test_firstInvalid_in_slot_order :
    (Instr.set (.invalid 5) (.invalid 40000)).firstInvalid = some 5 ∧
    (Instr.set (.reg 0) (.invalid 40000)).firstInvalid = some 40000 := by decide
theorem test_canonical_refuses :
    (Instr.pop (.invalid 32768)).canonical = false ∧ (Instr.push (.invalid 32775)).canonical = false := by decide

/-! Every constructor decoded from a word written out bit by bit from 30_encoding.md R74 and R78. -/

theorem test_decode_halt : decode [0b0000000000000000] = .ok (.halt, []) := by decide
theorem test_decode_set : decode [0b0000000000000001, 0b1000000000000111, 0b0111111111111111] =
    .ok (.set (.reg 7) (.lit 32767), []) := by decide
theorem test_decode_push : decode [0b0000000000000010, 0b1000000000000001] = .ok (.push (.reg 1), []) := by decide
theorem test_decode_pop : decode [0b0000000000000011, 0b1000000000000010] = .ok (.pop (.reg 2), []) := by decide
theorem test_decode_eq : decode [0b0000000000000100, 0b1000000000000001, 0b1000000000000000, 0b0000000000001010] =
    .ok (.eq (.reg 1) (.reg 0) (.lit 10), []) := by decide
theorem test_decode_gt : decode [0b0000000000000101, 0b1000000000000000, 0b0000000000000101, 0b0000000000000011] =
    .ok (.gt (.reg 0) (.lit 5) (.lit 3), []) := by decide
theorem test_decode_jmp : decode [0b0000000000000110, 0b0000000000000011] = .ok (.jmp (.lit 3), []) := by decide
theorem test_decode_jnz : decode [0b0000000000000111, 0b1000000000000000, 0b0000000000000011] =
    .ok (.jnz (.reg 0) (.lit 3), []) := by decide
theorem test_decode_jz : decode [0b0000000000001000, 0b1000000000000011, 0b0000000000010011] =
    .ok (.jz (.reg 3) (.lit 19), []) := by decide
theorem test_decode_add : decode [0b0000000000001001, 0b1000000000000000, 0b0000000000000100, 0b0000000000000101] =
    .ok (.add (.reg 0) (.lit 4) (.lit 5), []) := by decide
theorem test_decode_mul : decode [0b0000000000001010, 0b1000000000000010, 0b0000000000000011, 0b0100000000000000] =
    .ok (.mul (.reg 2) (.lit 3) (.lit 16384), []) := by decide
theorem test_decode_mod : decode [0b0000000000001011, 0b1000000000000000, 0b0000000000000111, 0b1000000000000101] =
    .ok (.mod (.reg 0) (.lit 7) (.reg 5), []) := by decide
theorem test_decode_and : decode [0b0000000000001100, 0b1000000000000000, 0b0111111111111111, 0b0101010101010101] =
    .ok (.and (.reg 0) (.lit 32767) (.lit 21845), []) := by decide
theorem test_decode_or : decode [0b0000000000001101, 0b1000000000000000, 0b0101010101010101, 0b0010101010101010] =
    .ok (.or (.reg 0) (.lit 21845) (.lit 10922), []) := by decide
theorem test_decode_not : decode [0b0000000000001110, 0b1000000000000110, 0b0000000000000000] =
    .ok (.not (.reg 6) (.lit 0), []) := by decide
theorem test_decode_rmem : decode [0b0000000000001111, 0b1000000000000011, 0b1000000000000001] =
    .ok (.rmem (.reg 3) (.reg 1), []) := by decide
theorem test_decode_wmem : decode [0b0000000000010000, 0b0000000000011011, 0b1000000000000010] =
    .ok (.wmem (.lit 27) (.reg 2), []) := by decide
theorem test_decode_call : decode [0b0000000000010001, 0b0000000000001000] = .ok (.call (.lit 8), []) := by decide
theorem test_decode_ret : decode [0b0000000000010010] = .ok (.ret, []) := by decide
theorem test_decode_out : decode [0b0000000000010011, 0b1000000000000000] = .ok (.out (.reg 0), []) := by decide
theorem test_decode_in : decode [0b0000000000010100, 0b1000000000000100] = .ok (.inp (.reg 4), []) := by decide
theorem test_decode_noop : decode [0b0000000000010101] = .ok (.noop, []) := by decide

/-- 95_test_vectors.md 2.1 and 2.2: Words that are no opcode, slots that are not valid, Words that are missing. -/
theorem test_decode_rejects :
    decode [22] = .error (.unknownOpcode 22) ∧ decode [32768] = .error (.unknownOpcode 32768) ∧
    decode [65535] = .error (.unknownOpcode 65535) ∧ decode [] = .error (.missingWord 0) ∧
    decode [1, 32768] = .error (.missingWord 2) ∧ decode [9, 32768, 1] = .error (.missingWord 3) ∧
    decode [3, 7] = .ok (.pop (.invalid 7), []) ∧ decode [2, 32776] = .ok (.push (.invalid 32776), []) := by decide

/-- A word of the opcode table whose operand bits are 0 (destination Word 0 is not valid), and one written in full. -/
theorem test_decodeTableWord :
    decodeTableWord 16 11 = some (.mod (.invalid 0) (.lit 0) (.lit 0)) ∧ decodeTableWord 16 22 = none ∧
    decodeTableWord 64 0x0005000480000009 = some (.add (.reg 0) (.lit 4) (.lit 5)) := by decide

/-! The loader, reset, fetching and the step. -/

/-- 95_test_vectors.md 1.2: Scenario A as bytes; with its last byte removed it is refused. -/
theorem test_loader :
    loadImage (some [0x01, 0x00, 0x00, 0x80, 0x4c, 0x00, 0x13, 0x00, 0x00, 0x80, 0x00, 0x00]) =
      .ok [1, 32768, 76, 19, 32768, 0] ∧
    loadImage (some [0x01, 0x00, 0x00]) = .error .corruptImage ∧ loadImage none = .error .ioError := ⟨rfl, rfl, rfl⟩

/-- The empty image is what `State.reset` holds (20_memory.md R52), and its first step faults at address 0. -/
theorem test_reset_is_empty_image : State.boot [] = State.reset ∧
    faultOf (step State.reset) = faulted .addressError 0 0 := by decide

/-- What the host places at `pc` is what the next step runs: here NOOP, and MOD with destination Word 0. -/
theorem test_withFetchWord :
    (after (step (State.reset.withFetchWord 16 21))).map State.pc = some 1 ∧
    faultOf (step (State.reset.withFetchWord 16 11)) = faulted .invalidOperand 0 0 := by decide

/-- 95_test_vectors.md 2.2: the order of checks. -/
theorem test_fault_priority :
    faultOf (step (State.boot [1, 40000])) = faulted .addressError 0 2 ∧
    faultOf (step (State.boot [3, 32776, 0])) = faulted .invalidOperand 0 32776 ∧
    faultOf (step (State.boot [8, 1, 40000, 0])) = faulted .invalidOperand 0 40000 ∧
    faultOf (step (State.boot [11, 7, 4, 0, 0])) = faulted .invalidOperand 0 7 := by decide

/-- 60_exceptions.md R200, R217: the status port. -/
theorem test_status_port :
    State.reset.statusPort = (0, 0, none) ∧ State.reset.halt.statusPort = (1, 0, none) ∧
    (State.reset.raise .stackOverflow 0).statusPort = (2, 8, some ⟨0, 0⟩) ∧
    [FaultKind.ioError, .corruptImage, .addressError, .invalidOperand, .unknownOpcode, .stackUnderflow,
      .divideByZero].map FaultKind.code = [1, 2, 3, 4, 5, 6, 7] := by decide

/-- `core` is the machine of this package. -/
theorem test_core_step : (core.step core.reset) = step State.reset := rfl

/-! The instructions, one step each. -/

theorem test_halt : (after (step (withRegs [21, 0] 1 2))).bind (fun s => (after (step s)).map fun t => (t.status, t.pc)) =
    some (.halted, 1) := by decide
theorem test_noop : regPc 0 (step (withRegs [21] 5 0)) = some (5, 1) := by decide
theorem test_set : regPc 0 (step (State.boot [1, 32768, 76])) = some (76, 3) := by decide
theorem test_set_copies_wide_word : regPc 1 (step (withRegs [1, 32769, 32768] 40000 0)) = some (40000, 3) := by decide
theorem test_push : (after (step (withRegs [2, 32768] 40000 0))).map (fun s => (s.stack, s.pc)) =
    some ([40000], 2) := by decide
theorem test_push_overflow :
    faultOf (exec (.push (.lit 2)) { withRegs [2, 2] 0 0 with stack := [1], params := { stackDepth := some 1, lineMax := none } }) =
      faulted .stackOverflow 0 0 := by decide
theorem test_pop : (after (step { withRegs [3, 32768] 0 0 with stack := [7, 5] })).map
    (fun s => (s.reg 0, s.stack, s.pc)) = some (7, [5], 2) := by decide
theorem test_pop_underflow : faultOf (step (State.boot [3, 32768, 0])) = faulted .stackUnderflow 0 0 := by decide
theorem test_eq_reads_before_write : regPc 0 (step (withRegs [4, 32768, 32768, 32768] 9 0)) = some (1, 4) := by decide
theorem test_eq_whole_word : regPc 1 (step (withRegs [4, 32769, 32768, 7232] 40000 3)) = some (0, 4) := by decide
theorem test_gt_unsigned : regPc 0 (step (State.boot [5, 32768, 0, 32767])) = some (0, 4) ∧
    regPc 0 (step (State.boot [5, 32768, 6, 5])) = some (1, 4) := by decide
theorem test_gt_whole_word : regPc 1 (step (withRegs [5, 32769, 32768, 32767] 40000 0)) = some (1, 4) := by decide
theorem test_jmp : regPc 0 (step (withRegs [6, 32768] 65535 0)) = some (65535, 65535) := by decide
theorem test_jnz : regPc 0 (step (withRegs [7, 32768, 3] 40000 0)) = some (40000, 3) ∧
    regPc 0 (step (withRegs [7, 32768, 9] 0 0)) = some (0, 3) := by decide
theorem test_jz : regPc 0 (step (withRegs [8, 32768, 9] 0 0)) = some (0, 9) ∧
    regPc 0 (step (withRegs [8, 32768, 9] 32768 0)) = some (32768, 3) := by decide
theorem test_add_wraps : regPc 0 (step (State.boot [9, 32768, 32767, 1])) = some (0, 4) := by decide
theorem test_add_wide_in_place : regPc 0 (step (withRegs [9, 32768, 32768, 32768] 65535 0)) = some (32766, 4) := by decide
theorem test_mul : regPc 0 (step (State.boot [10, 32768, 12345, 6789])) = some (22429, 4) := by decide
theorem test_mul_wide : regPc 1 (step (withRegs [10, 32769, 32768, 32768] 65535 0)) = some (1, 4) := by decide
theorem test_mod_unreduced : regPc 0 (step (withRegs [11, 32768, 32768, 32769] 40000 50000)) = some (40000, 4) := by decide
theorem test_mod_zero : faultOf (step (State.boot [11, 32768, 4, 0, 0])) = faulted .divideByZero 0 0 ∧
    regPc 0 (step (withRegs [11, 32768, 4, 32769, 0] 6 0)) = some (6, 0) := by decide
theorem test_and : regPc 0 (step (State.boot [12, 32768, 3855, 255])) = some (15, 4) := by decide
theorem test_and_keeps_bit_15 : regPc 1 (step (withRegs [12, 32769, 32768, 32768] 32769 0)) = some (32769, 4) := by decide
theorem test_or : regPc 0 (step (State.boot [13, 32768, 3855, 255])) = some (4095, 4) := by decide
theorem test_or_keeps_bit_15 : regPc 1 (step (withRegs [13, 32769, 32768, 1] 32768 0)) = some (32769, 4) := by decide
theorem test_not : regPc 0 (step (State.boot [14, 32768, 21845])) = some (10922, 3) := by decide
theorem test_not_clears_bit_15 : regPc 1 (step (withRegs [14, 32769, 32768] 65535 9)) = some (0, 3) := by decide
theorem test_rmem : regPc 0 (step (State.boot [15, 32768, 1, 0])) = some (32768, 3) := by decide
theorem test_rmem_out_of_bounds : faultOf (step (State.boot [15, 32768, 4, 0])) = faulted .addressError 0 4 := by decide
theorem test_wmem_own_words : (after (step (State.boot [16, 1, 5, 0]))).map (fun s => (s.mem, s.pc)) =
    some (Memory.ofImage [16, 5, 5, 0], 3) := by decide
theorem test_wmem_out_of_bounds : faultOf (step (State.boot [16, 4, 1, 0])) = faulted .addressError 0 4 := by decide
theorem test_call : (after (step (withRegs [17, 32768, 0] 2 0))).map (fun s => (s.stack, s.pc)) = some ([2], 2) := by decide
theorem test_call_overflow :
    faultOf (exec (.call (.lit 8)) { State.boot [17, 8] with params := { stackDepth := some 0, lineMax := none } }) =
      faulted .stackOverflow 0 0 := by decide
theorem test_ret : (after (step { State.boot [18] with stack := [5, 9] })).map (fun s => (s.stack, s.pc)) =
    some ([9], 5) := by decide
theorem test_ret_halts : (after (step (State.boot [18, 0]))).map (fun s => (s.status, s.pc, s.faultRec)) =
    some (.halted, 0, none) := by decide
theorem test_out : (after (step (State.boot [19, 321]))).map (fun s => (s.out, s.pc)) = some ([65], 2) := by decide
theorem test_in_refills : (after (step { State.boot [20, 32768] with conIn := [[104, 105, 10], [97, 10]] })).map
    (fun s => (s.reg 0, s.inq, s.conIn)) = some (104, [105, 10], [[97, 10]]) := by decide
theorem test_in_newline_ends_line : (after (step { State.boot [20, 32768] with inq := [10], conIn := [[97, 10]] })).map
    (fun s => (s.reg 0, s.inq, s.conIn)) = some (10, [], [[97, 10]]) := by decide

/-! Witnesses: concrete states and operands that meet the hypotheses of the statements. -/

theorem witness_DecodeOfEncode :
    (Instr.set (.reg 7) (.lit 32767)).canonical = true ∧ (Instr.set (.invalid 32767) (.invalid 32776)).canonical = true ∧
    encode (.set (.reg 7) (.lit 32767)) = [1, 32775, 32767] := by decide
theorem witness_EncodeOfDecode : decode [4, 0, 65535, 32775, 9] = .ok (.eq (.invalid 0) (.invalid 65535) (.reg 7), [9]) := by
  decide
theorem witness_ResolveOfEveryWord :
    (32767 : Word).toNat ≤ 32767 ∧ (32768 : Word).toNat = 32768 + (0 : Reg).val ∧
    (32775 : Word).toNat = 32768 + (7 : Reg).val ∧ 32776 ≤ (32776 : Word).toNat ∧ 32776 ≤ (65535 : Word).toNat := by decide
theorem witness_DestinationOfEveryWord :
    (32775 : Word).toNat = 32768 + (7 : Reg).val ∧ (32767 : Word).toNat < 32768 ∧ 32776 ≤ (32776 : Word).toNat := by decide
theorem witness_StepRunsDecodedInstruction :
    (State.boot [1, 32768, 76]).status = .running ∧
    decode (State.boot [1, 32768, 76]).fetchWords = .ok (.set (.reg 0) (.lit 76), []) := by decide
theorem witness_StepRunsInstructionInMemory :
    (Instr.set (.reg 0) (.lit 76)).canonical = true ∧
    ∀ n < (encode (.set (.reg 0) (.lit 76))).length, (State.boot [1, 32768, 76]).mem.read (0 + n) =
      (encode (.set (.reg 0) (.lit 76)))[n]? := by decide
theorem witness_OpcodeFetchOutOfBounds :
    State.reset.status = .running ∧ State.reset.mem.size ≤ State.reset.pc.toNat ∧
    ((State.boot [21]).jump 1).mem.size ≤ ((State.boot [21]).jump 1).pc.toNat := by decide
theorem witness_UnknownOpcodeFrom22IsRaised :
    (State.boot [22]).mem.read (State.boot [22]).pc.toNat = some 22 ∧ 22 ≤ (22 : Word).toNat ∧
    faultOf (step (State.boot [65535, 9, 9, 9])) = faulted .unknownOpcode 0 65535 := by decide
theorem witness_OperandFetchOutOfBounds :
    0 < 3 ∧ 3 < (encode (.add (.reg 0) (.lit 1) (.lit 2))).length ∧
    (∀ m < 3, (State.boot [9, 32768, 1]).mem.read (0 + m) = (encode (.add (.reg 0) (.lit 1) (.lit 2)))[m]?) ∧
    (State.boot [9, 32768, 1]).mem.read (0 + 3) = none ∧
    faultOf (step (State.boot [9, 32768, 1])) = faulted .addressError 0 3 ∧
    faultOf (step (State.boot [2])) = faulted .addressError 0 1 := by decide
theorem witness_InvalidOperandIsRaisedFirst :
    (Instr.inp (.invalid 5)).firstInvalid = some 5 ∧ (Instr.wmem (.lit 3) (.invalid 32776)).firstInvalid = some 32776 ∧
    (Instr.jz (.lit 1) (.invalid 40000)).firstInvalid = some 40000 := by decide
theorem witness_NoStepInTerminalState :
    State.reset.halt.status ≠ .running ∧ (State.reset.raise .addressError 0).status ≠ .running := by decide
theorem witness_FaultsArePrecise : faultOf (step (State.boot [11, 32768, 4, 0, 0])) = faulted .divideByZero 0 0 := by decide
theorem witness_ExecuteTimeFaultsByInstruction :
    faultOf (step (State.boot [3, 32768])) = faulted .stackUnderflow 0 0 ∧
    faultOf (step { State.boot [2, 2] with params := { stackDepth := some 0, lineMax := none } }) =
      faulted .stackOverflow 0 0 := by decide
theorem witness_AddressErrorTellsItsPlace :
    (State.boot [15, 32768, 4, 0]).Inv ∧ State.reset.Inv ∧
    faultOf (step (State.boot [15, 32768, 4, 0])) = faulted .addressError 0 4 ∧
    faultOf (step State.reset) = faulted .addressError 0 0 :=
  ⟨⟨by decide, by decide, by decide, by decide, by decide⟩, ⟨by decide, by decide, by decide, by decide, by decide⟩,
    by decide, by decide⟩
theorem witness_HaltedOnlyByHaltOrEmptyRet :
    faultOf (step (State.boot [0])) = some (.halted, none) ∧ faultOf (step (State.boot [18])) = some (.halted, none) := by
  decide
theorem witness_OnlyInputCanSuspend :
    (State.boot [20, 32768]).status = .running ∧ (State.boot [20, 32768]).inputReady = false ∧
    (after (step (State.boot [20, 32768]))).isNone = true ∧
    (after (step ((State.boot [20, 32768]).supplyLine [10]))).isSome = true := by decide
/-- 00_scope.md R6: a machine with finite parameters comes out of reset with them, and they bound its stack and lines. -/
theorem test_boot_with_parameters :
    (State.boot [2, 5] { stackDepth := some 0, lineMax := some ⟨1, by decide⟩ }).params.stackDepth = some 0 ∧
    faultOf (step (State.boot [2, 5] { stackDepth := some 0, lineMax := none })) = faulted .stackOverflow 0 0 ∧
    powerOn (some [0x15, 0x00]) { stackDepth := some 3, lineMax := none } =
      .ok (State.boot [21] { stackDepth := some 3, lineMax := none }) := ⟨rfl, by decide, rfl⟩
theorem witness_BootLeavesResetState : ([1, 32768, 76, 0] : List Word).length ≤ 32768 := by decide
theorem witness_LoaderDeliversLittleEndianWords :
    ([0x4c, 0x80] : List Byte).length % 2 = 0 ∧ ([0x4c, 0x80] : List Byte)[2 * 0]? = some 0x4c ∧
    ([0x4c, 0x80] : List Byte)[2 * 0 + 1]? = some 0x80 ∧ ([0x4c] : List Byte).length % 2 = 1 := by decide
theorem witness_LoaderOversize : 65536 < (List.replicate 65538 (0 : Byte)).length := by
  rw [List.length_replicate]; exact Nat.le_of_ble_eq_true rfl
theorem witness_StepKeepsInvariant :
    ({ State.boot [20, 32768] with inq := [97, 10], stack := [40000] } : State).Inv ∧
    (after (step { State.boot [20, 32768] with inq := [97, 10], stack := [40000] })).isSome = true :=
  ⟨⟨by decide, by decide, by decide, by decide, by decide⟩, by decide⟩
theorem witness_SizeConstantAndOutputGrows : (after (step (State.boot [19, 256]))).isSome = true := by decide
theorem witness_NarrowDataStaysNarrow :
    (withRegs [15, 32768, 3, 7] 32767 0).Inv ∧ (withRegs [15, 32768, 3, 7] 32767 0).Narrow ∧
    (withRegs [15, 32768, 3, 7] 32767 0).mem.read 3 = some 7 ∧ (7 : Word).toNat ≤ 32767 ∧
    (withRegs [15, 32768, 3, 7] 32767 0).pc.toNat < 32766 ∧
    (after (exec (.rmem (.reg 0) (.lit 3)) (withRegs [15, 32768, 3, 7] 32767 0))).isSome = true :=
  ⟨⟨by decide, by decide, by decide, by decide, by decide⟩, ⟨by decide, fun v hv => by cases hv⟩, by decide, by decide,
    by decide, by decide⟩
theorem witness_PcMovesPastInstruction :
    (after (exec (.add (.reg 0) (.lit 1) (.lit 2)) State.reset)).map State.status = some .running ∧
    setsPc (.add (.reg 0) (.lit 1) (.lit 2)) = false := by decide
theorem witness_MemoryPrimitives :
    (State.boot [16, 1, 5]).mem.wf ∧ (State.boot [16, 1, 5]).mem.size ≤ (3 : Word).toNat ∧
    (2 : Word).toNat < (State.boot [16, 1, 5]).mem.size := by decide
theorem witness_StoreSeenByNextFetch :
    (State.boot [16, 3, 21, 99, 0]).mem.wf ∧ resolve (State.boot [16, 3, 21, 99, 0]) (.lit 3) =
      .ok ((State.boot [16, 3, 21, 99, 0]).pc + 3) ∧
    ((State.boot [16, 3, 21, 99, 0]).pc + 3).toNat < (State.boot [16, 3, 21, 99, 0]).mem.size ∧
    (after (exec (.wmem (.lit 3) (.lit 21)) (State.boot [16, 3, 21, 99, 0]))).map (fun s => s.fetchWords) =
      some [21, 0] := by decide

/-- The operands of SET, NOT, EQ, GT, ADD, MUL, MOD, AND, OR, JMP, JNZ, JZ, OUT and the statements about two of them:
every read slot that is not invalid has a value, at both ends of its range. -/
theorem witness_operands :
    resolve (withRegs [] 65535 0) (.lit 32767) = .ok 32767 ∧ resolve (withRegs [] 65535 0) (.lit 0) = .ok 0 ∧
    resolve (withRegs [] 65535 0) (.reg 0) = .ok 65535 ∧ resolve (withRegs [] 65535 0) (.reg 7) = .ok 0 := by decide
theorem witness_SetCopiesWholeWord : resolve (withRegs [] 65535 0) (.reg 0) = .ok 65535 := by decide
theorem witness_NotWritesComplementOf15Bits : resolve (withRegs [] 32768 0) (.reg 0) = .ok 32768 := by decide
theorem witness_NotTwiceIsIdentity : resolve (withRegs [] 32767 0) (.reg 0) = .ok 32767 ∧
    resolve (withRegs [] 32768 0) (.reg 0) = .ok 32768 := by decide
theorem witness_EqWritesOneIfEqual : resolve (withRegs [] 10 0) (.reg 0) = .ok 10 ∧
    resolve (withRegs [] 10 0) (.lit 10) = .ok 10 := by decide
theorem witness_GtWritesOneIfGreaterUnsigned : resolve (withRegs [] 40000 0) (.reg 0) = .ok 40000 ∧
    resolve (withRegs [] 40000 0) (.lit 32767) = .ok 32767 := by decide
theorem witness_AddWritesSumModulo32768 : resolve (withRegs [] 65535 0) (.reg 0) = .ok 65535 ∧
    resolve (withRegs [] 65535 0) (.lit 1) = .ok 1 := by decide
theorem witness_MulWritesProductModulo32768 : resolve (withRegs [] 65535 2) (.reg 0) = .ok 65535 ∧
    resolve (withRegs [] 65535 2) (.reg 1) = .ok 2 := by decide
theorem witness_AddMulClosedIn15Bits : resolve (withRegs [] 65535 65535) (.reg 0) = .ok 65535 ∧
    resolve (withRegs [] 65535 65535) (.reg 1) = .ok 65535 := by decide
theorem witness_ModWritesRemainder : resolve (withRegs [] 7 0) (.reg 0) = .ok 7 ∧
    resolve (withRegs [] 7 0) (.lit 1) = .ok 1 ∧ resolve (withRegs [] 7 0) (.reg 1) = .ok 0 ∧ (1 : Word) ≠ 0 := by decide
theorem witness_AndWritesBitwiseAnd : resolve (withRegs [] 32769 1) (.reg 0) = .ok 32769 ∧
    resolve (withRegs [] 32769 1) (.reg 1) = .ok 1 := by decide
theorem witness_OrWritesBitwiseOr : resolve (withRegs [] 32768 1) (.reg 0) = .ok 32768 ∧
    resolve (withRegs [] 32768 1) (.lit 1) = .ok 1 := by decide
theorem witness_JmpGoesToTarget : resolve (withRegs [] 65535 0) (.reg 0) = .ok 65535 ∧
    32776 ≤ (32776 : Word).toNat ∧ 32776 ≤ (65535 : Word).toNat := by decide
theorem witness_JnzJumpsIfNotZero : resolve (withRegs [] 1 65535) (.reg 0) = .ok 1 ∧
    resolve (withRegs [] 0 65535) (.reg 0) = .ok 0 ∧ resolve (withRegs [] 1 65535) (.reg 1) = .ok 65535 := by decide
theorem witness_JzJumpsIfZero : resolve (withRegs [] 0 3) (.reg 0) = .ok 0 ∧
    resolve (withRegs [] 32768 3) (.reg 0) = .ok 32768 ∧ resolve (withRegs [] 0 3) (.reg 1) = .ok 3 := by decide
theorem witness_OutAppendsLowByte : resolve (withRegs [] 321 0) (.reg 0) = .ok 321 := by decide

theorem witness_PushPutsValueOnStack :
    resolve State.reset (.lit 5) = .ok 5 ∧ State.reset.params.stackDepth ≠ some State.reset.stack.length ∧
    ({ State.reset with stack := [1], params := { stackDepth := some 1, lineMax := none } } : State).stackFull := by decide
theorem witness_CallPushesReturnAddress :
    resolve (withRegs [] 2 0) (.reg 0) = .ok 2 ∧ (withRegs [] 2 0).params.stackDepth ≠ some (withRegs [] 2 0).stack.length ∧
    ({ State.reset with params := { stackDepth := some 0, lineMax := none } } : State).stackFull := by decide
theorem witness_PopTakesTopOfStack :
    ({ State.reset with stack := [7, 5] } : State).stack = 7 :: [5] ∧ State.reset.stack = [] := by decide
theorem witness_RetPopsTargetOrHalts :
    ({ State.reset with stack := [65535] } : State).stack = 65535 :: [] ∧ State.reset.stack = [] := by decide
theorem witness_RmemLoadsMemoryWord :
    resolve (State.boot [15, 32768, 2]) (.lit 2) = .ok 2 ∧ (State.boot [15, 32768, 2]).mem.read (2 : Word).toNat = some 2 ∧
    (State.boot [15, 32768, 2]).mem.size ≤ (3 : Word).toNat := by decide
theorem witness_WmemStoresMemoryWord :
    (withRegs [16, 32768, 32769] 2 65535).mem.wf ∧ resolve (withRegs [16, 32768, 32769] 2 65535) (.reg 0) = .ok 2 ∧
    resolve (withRegs [16, 32768, 32769] 2 65535) (.reg 1) = .ok 65535 ∧
    (2 : Word).toNat < (withRegs [16, 32768, 32769] 2 65535).mem.size ∧
    (withRegs [16, 32768, 32769] 2 65535).mem.size ≤ (3 : Word).toNat ∧
    (32776 ≤ (5 : Word).toNat ∨ 32776 ≤ (32776 : Word).toNat) := by decide
theorem witness_InDeliversNextCharacter :
    ({ State.reset with inq := [97, 10] } : State).inq = 97 :: [10] ∧
    ({ State.reset with conIn := [[10]] } : State).conIn = (10 :: []) :: [] ∧ lineOk Params.default [10] = true ∧
    lineOk { stackDepth := none, lineMax := some ⟨2, by decide⟩ } [97, 10] = true := by decide
theorem witness_ExecStopsOnlyForWantOfALine :
    State.reset.inq = [] ∧ State.reset.conIn = [] ∧ lineOk State.reset.params [97, 10] = true ∧
    lineOk State.reset.params [] = false ∧ lineOk State.reset.params [97] = false ∧
    lineOk State.reset.params [10, 97, 10] = false ∧
    lineOk { stackDepth := none, lineMax := some ⟨1, by decide⟩ } [97, 10] = false := by decide
theorem witness_InsDeliverConcatenationOfLines :
    queueOk ({ State.reset with conIn := [[97, 10]] } : State).inq = true ∧
    (after (exec (.inp (.reg 0)) { State.reset with conIn := [[97, 10]] })).map State.pendingInput = some [10] := by decide
theorem witness_PushPopRoundTrip :
    List.Forall₂ (fun a v => resolve (withRegs [] 40000 0) a = .ok v) [.lit 5, .reg 0] [5, 40000] ∧
    ([0, 1] : List Reg).length = ([5, 40000] : List Word).length ∧ ([0, 1] : List Reg).Nodup ∧
    ∀ depth, (withRegs [] 40000 0).params.stackDepth = some depth →
      (withRegs [] 40000 0).stack.length + ([5, 40000] : List Word).length ≤ depth :=
  ⟨.cons rfl (.cons rfl .nil), rfl, by decide, fun depth h => by cases h⟩
theorem witness_RetResumesAfterCall :
    resolve State.reset (.lit 8) = .ok 8 ∧ ¬ State.reset.stackFull ∧
    (after (exec (.call (.lit 8)) State.reset)).map State.stack = some [2] := by decide
theorem witness_FrameOfRegisterInstructions :
    ∀ i ∈ [Instr.set (.reg 0) (.lit 1), .not (.reg 0) (.lit 1), .rmem (.reg 0) (.lit 1), .eq (.reg 0) (.lit 1) (.lit 2),
      .gt (.reg 0) (.lit 1) (.lit 2), .add (.reg 0) (.lit 1) (.lit 2), .mul (.reg 0) (.lit 1) (.lit 2),
      .mod (.reg 0) (.lit 1) (.lit 2), .and (.reg 0) (.lit 1) (.lit 2), .or (.reg 0) (.lit 1) (.lit 2)],
      ((after (exec i (State.boot [0, 7]))).map fun s => (s.status, s.pc != 0)) = some (.running, true) := by decide
theorem witness_FrameOfOtherInstructions :
    ∀ i ∈ [Instr.push (.lit 1), .pop (.reg 0), .call (.lit 9), .ret, .jmp (.lit 9), .jnz (.lit 1) (.lit 9),
      .jz (.lit 1) (.lit 9), .noop, .wmem (.lit 1) (.lit 9), .out (.lit 65), .inp (.reg 0)],
      ((after (exec i { State.boot [0, 7] with stack := [4], inq := [97, 10] })).map fun s => (s.status, s.pc != 0)) =
        some (.running, true) := by decide

end Sys2Proof.Tests
end

section
/-! Reset with an image (70_reset_and_hazards.md R230): memory is the image, and the invariant holds. -/

namespace Sys2Proof.Machine

/-- Memory "sized exactly to the loaded program" (20_memory.md R50). -/
@[simp] theorem Memory.ofImage_size (image : List Word) : (Memory.ofImage image).size = image.length := rfl

/-- A Word of 0 in the image reads back too, though no cell lists it. -/
@[simp] theorem Memory.read_ofImage (image : List Word) (i : Nat) : (Memory.ofImage image).read i = image[i]? := by
  by_cases h : i < image.length
  · have hget : cellsGet (cellsOfImage 0 image) i = image[i] := by
      simpa only [Nat.zero_add] using cellsGet_cellsOfImage 0 image i h
    rw [List.getElem?_eq_getElem h, ← hget]
    exact if_pos h
  · have hle : image.length ≤ i := Nat.le_of_not_lt h
    rw [List.getElem?_eq_none hle]
    exact Memory.read_eq_none_iff.2 hle

/-- 10_state.md R33. -/
@[simp] theorem State.reg_boot (image : List Word) (params : Params) (r : Reg) : (State.boot image params).reg r = 0 := by
  have hzero : ∀ i : Reg, (#v[0, 0, 0, 0, 0, 0, 0, 0] : Vector Word 8)[i] = 0 := by decide
  exact hzero r

/-- The empty queue and stack keep any bound that 00_scope.md R6 allows (10_state.md R37). -/
theorem State.boot_inv (image : List Word) (params : Params) (h : image.length ≤ 32768) : (State.boot image params).Inv where
  memory := Memory.ofImage_wf image h
  queue := rfl
  queueBound := within_zero _
  stackBound := within_zero _
  record := rfl

end Sys2Proof.Machine

namespace Sys2Proof.Proofs

open Sys2Proof Sys2Proof.Machine

/-- Settles O18: every field by its `boot` lemma, memory by `Memory.read_ofImage`, the invariant by `State.boot_inv`. -/
theorem bootLeavesResetState : Obligations.BootLeavesResetState := by
  intro image params himage
  exact ⟨State.reg_boot image params, State.boot_pc image params, Memory.ofImage_size image, Memory.read_ofImage image,
    State.boot_stack image params, State.boot_inq image params, State.boot_out image params,
    State.boot_status image params, State.boot_faultRec image params, State.boot_params image params,
    State.boot_inv image params himage⟩

end Sys2Proof.Proofs
end

section
/-! What each effect of `exec` leaves unchanged, part of the state by part (10_state.md R20): the inversion of the step,
and frame lemmas over `Effect` from which invariants and frames are assembled. -/

namespace Sys2Proof.Machine

variable {s t : State} {i : Instr}

/-- A step of a running machine is an effect of some instruction or the fault of a fetch that failed. -/
theorem effect_or_raise_of_step (h : step s = .next t) :
    s.status = .running ∧
      ((∃ i, Effect s i t) ∨ ∃ k info, (k = .addressError ∨ k = .unknownOpcode) ∧ t = s.raise k info) := by
  obtain ⟨hrun, ⟨i, rest, -, hexec⟩ | ⟨e, -, rfl⟩⟩ := step_next h
  · exact ⟨hrun, .inl ⟨i, effect_of_exec hexec⟩⟩
  · exact ⟨hrun, .inr (raiseDecode_eq s e)⟩

theorem sameMemory_of_mem_eq (h : t.mem = s.mem) : SameMemory s t :=
  ⟨congrArg Memory.size h, fun a => congrArg (·.read a) h⟩

/-- 00_scope.md R6: the parameters are constants of the machine. -/
theorem Effect.params_eq (h : Effect s i t) : t.params = s.params := by
  cases h <;> rfl

/-- No register but the destination register is written (10_state.md R23). -/
theorem Effect.sameRegs (h : Effect s i t) : SameRegs i.dest? s t := by
  intro r hr
  have hne : ∀ {r' : Reg}, i.dest? = some (.reg r') → r ≠ r' := by
    rintro r' hd rfl
    exact hr hd
  cases h with
  | unary f i hx hi =>
    refine State.reg_setReg_ne _ _ (hne ?_)
    rcases hi with ⟨rfl, -⟩ | ⟨rfl, -⟩ <;> rfl
  | binary f i hx hy hi =>
    refine State.reg_setReg_ne _ _ (hne ?_)
    rcases hi with ⟨rfl, -⟩ | ⟨rfl, -⟩ | ⟨rfl, -⟩ | ⟨rfl, -⟩ | ⟨rfl, -⟩ | ⟨rfl, -⟩ | ⟨rfl, -, -⟩ <;> rfl
  | load | pop | inQueue | inRefill => exact State.reg_setReg_ne _ _ (hne rfl)
  | _ => rfl

/-- Memory is written by WMEM alone (20_memory.md R64). -/
theorem Effect.mem_cases (h : Effect s i t) :
    t.mem = s.mem ∨
    ∃ a b addr v, i = .wmem a b ∧ resolve s a = .ok addr ∧ resolve s b = .ok v ∧
      s.mem.write addr.toNat v = some t.mem := by
  cases h with
  | store ha hb hm => exact .inr ⟨_, _, _, _, rfl, ha, hb, hm⟩
  | _ => exact .inl rfl

/-- The stack changes by one entry at its top: PUSH and CALL put one there, POP and RET take it. -/
theorem Effect.stack_cases (h : Effect s i t) :
    t.stack = s.stack ∨
    (∃ v, t.stack = v :: s.stack ∧ ¬ s.stackFull ∧
      ∃ a, (i = .push a ∧ resolve s a = .ok v) ∨ (i = .call a ∧ v = s.pc + 2)) ∨
    (∃ v, s.stack = v :: t.stack ∧ ((∃ r, i = .pop (.reg r)) ∨ i = .ret)) := by
  cases h with
  | push hv hf => exact .inr (.inl ⟨_, rfl, hf, _, .inl ⟨rfl, hv⟩⟩)
  | call hu hf => exact .inr (.inl ⟨_, rfl, hf, _, .inr ⟨rfl, rfl⟩⟩)
  | pop hs => exact .inr (.inr ⟨_, hs, .inl ⟨_, rfl⟩⟩)
  | ret hs => exact .inr (.inr ⟨_, hs, .inr rfl⟩)
  | _ => exact .inl rfl

/-- The input queue and the lines of the console are touched by IN alone (48_io.md R181). -/
theorem Effect.input_cases (h : Effect s i t) :
    (t.inq = s.inq ∧ t.conIn = s.conIn) ∨ ∃ r, i = .inp (.reg r) := by
  cases h with
  | inQueue | inRefill => exact .inr ⟨_, rfl⟩
  | _ => exact .inl ⟨rfl, rfl⟩

/-- The output trace is extended by OUT alone, by one byte (48_io.md R180). -/
theorem Effect.out_cases (h : Effect s i t) :
    t.out = s.out ∨ ∃ a x, i = .out a ∧ resolve s a = .ok x ∧ t.out = s.out ++ [x.setWidth 8] := by
  cases h with
  | out hx => exact .inr ⟨_, _, rfl, hx, rfl⟩
  | _ => exact .inl rfl

/-- Status and fault record are written by a fault or by a halt, and then nothing else is (40_dispatch.md R96, R97). -/
theorem Effect.status_cases (h : Effect s i t) :
    SameStatusOrFault s t ∨ (t = s.halt ∧ (i = .halt ∨ (i = .ret ∧ s.stack = []))) := by
  cases h with
  | badSlot | divideByZero | badAddress | overflow | underflow => exact .inl (.inr ⟨_, _, rfl⟩)
  | halt => exact .inr ⟨rfl, .inl rfl⟩
  | retHalt hs => exact .inr ⟨rfl, .inr ⟨rfl, hs⟩⟩
  | _ => exact .inl (.inl ⟨rfl, rfl⟩)

/-- 10_state.md R25: `pc` stays where the machine stops (D8), is set by the instructions that set it, and otherwise
moves past the Words of the instruction. -/
theorem Effect.pc_cases (h : Effect s i t) :
    (t.pc = s.pc ∧ t.status ≠ .running) ∨ setsPc i = true ∨ t.pc = s.pc + BitVec.ofNat 16 (1 + i.arity) := by
  cases h with
  | halt | retHalt | badSlot | divideByZero | badAddress | overflow | underflow => exact .inl ⟨rfl, nofun⟩
  | call | ret => exact .inr (.inl rfl)
  | jump hu hi =>
    right; left
    rcases hi with rfl | ⟨cond, c, rfl, -⟩ | ⟨cond, rfl, -⟩ <;> rfl
  | fallThrough hc hi =>
    right; left
    rcases hi with ⟨rfl, -⟩ | ⟨rfl, -⟩ <;> rfl
  | unary f i hx hi =>
    right; right
    rcases hi with ⟨rfl, -⟩ | ⟨rfl, -⟩ <;> rfl
  | binary f i hx hy hi =>
    right; right
    rcases hi with ⟨rfl, -⟩ | ⟨rfl, -⟩ | ⟨rfl, -⟩ | ⟨rfl, -⟩ | ⟨rfl, -⟩ | ⟨rfl, -⟩ | ⟨rfl, -, -⟩ <;> rfl
  | _ => exact .inr (.inr rfl)

end Sys2Proof.Machine
end

section
/-! The invariant of the state (10_state.md R37): how each update of the state keeps it, and that every effect does. -/

namespace Sys2Proof.Machine

variable {s t : State} {i : Instr}

theorem within_mono {m n : Nat} {bound : Option Nat} (h : within n bound = true) (hle : m ≤ n) :
    within m bound = true := by
  cases bound with
  | none => rfl
  | some b => simp only [within, Option.all_some, decide_eq_true_eq] at h ⊢; omega

/-- A bound that is kept and not met leaves room for one more. -/
theorem within_succ {n : Nat} {bound : Option Nat} (h : within n bound = true) (hne : bound ≠ some n) :
    within (n + 1) bound = true := by
  cases bound with
  | none => rfl
  | some b =>
    have hb : b ≠ n := fun heq => hne (congrArg some heq)
    simp only [within, Option.all_some, decide_eq_true_eq] at h ⊢; omega

/-- The queue that a legal line makes is no longer than `LINE_MAX` (48_io.md R182). -/
theorem within_of_lineOk {p : Params} {line : List Byte} (h : lineOk p line = true) :
    within (line.map (·.setWidth 16) : List Word).length (p.lineMax.map Subtype.val) = true := by
  rw [List.length_map, within, Option.all_map]
  exact (Bool.and_eq_true_iff.1 h).2

theorem State.recordOk_of_running (hrun : s.status = .running) : s.recordOk = s.faultRec.isNone := by
  simp only [State.recordOk, hrun]

theorem State.Inv.setReg (h : s.Inv) (r : Reg) (v : Word) : (s.setReg r v).Inv :=
  ⟨h.memory, h.queue, h.queueBound, h.stackBound, h.record⟩

theorem State.Inv.emit (h : s.Inv) (b : Byte) : (s.emit b).Inv :=
  ⟨h.memory, h.queue, h.queueBound, h.stackBound, h.record⟩

theorem State.Inv.setConsole (h : s.Inv) (lines : List (List Byte)) : (s.setConsole lines).Inv :=
  ⟨h.memory, h.queue, h.queueBound, h.stackBound, h.record⟩

theorem State.Inv.setMem (h : s.Inv) {m : Memory} (hm : m.wf) : (s.setMem m).Inv :=
  ⟨hm, h.queue, h.queueBound, h.stackBound, h.record⟩

theorem State.Inv.setStack (h : s.Inv) {l : List Word} (hl : within l.length s.params.stackDepth = true) :
    (s.setStack l).Inv :=
  ⟨h.memory, h.queue, h.queueBound, hl, h.record⟩

/-- While the machine runs there is no record whose `fault_pc` could differ from `pc`. -/
theorem State.Inv.jump (h : s.Inv) (hrun : s.status = .running) (u : Word) : (s.jump u).Inv where
  memory := h.memory
  queue := h.queue
  queueBound := h.queueBound
  stackBound := h.stackBound
  record := by
    rw [State.recordOk_of_running (s := s.jump u) hrun, State.jump_faultRec, ← State.recordOk_of_running hrun]
    exact h.record

theorem State.Inv.advance (h : s.Inv) (hrun : s.status = .running) (n : Nat) : (s.advance n).Inv :=
  h.jump hrun _

theorem State.Inv.halt (h : s.Inv) (hrun : s.status = .running) : s.halt.Inv :=
  ⟨h.memory, h.queue, h.queueBound, h.stackBound, (State.recordOk_of_running hrun).symm.trans h.record⟩

/-- The kinds left out are the loader's, which no step raises (60_exceptions.md R206, R207). -/
theorem State.Inv.raise (h : s.Inv) {k : FaultKind} (hio : k ≠ .ioError) (himage : k ≠ .corruptImage) (info : Word) :
    (s.raise k info).Inv :=
  ⟨h.memory, h.queue, h.queueBound, h.stackBound, by simp [State.recordOk, hio, himage]⟩

/-- The top of the stack may go. -/
theorem State.Inv.setStack_tail (h : s.Inv) {v : Word} {rest : List Word} (hs : s.stack = v :: rest) :
    (s.setStack rest).Inv :=
  h.setStack (within_mono h.stackBound (by simp [hs]))

/-- A stack that is not full takes one more entry (41_move_stack.md R111). -/
theorem State.Inv.setStack_cons (h : s.Inv) (hf : ¬ s.stackFull) (v : Word) : (s.setStack (v :: s.stack)).Inv :=
  h.setStack (within_succ h.stackBound hf)

/-- Taking the first character of a legal queue within `LINE_MAX`, the machine's own or a line just supplied
(48_io.md R181). -/
theorem State.Inv.takeCharacter (h : s.Inv) {c : Word} {rest : List Word} (hq : queueOk (c :: rest) = true)
    (hb : within (c :: rest).length (s.params.lineMax.map Subtype.val) = true) :
    ((s.setQueue rest).clearOnNewline c).Inv := by
  have hlen : (if c.toNat = newline then [] else rest).length ≤ (c :: rest).length := by split <;> simp
  exact ⟨h.memory, (queueOk_step hq).1, within_mono hb hlen, h.stackBound, h.record⟩

/-- Every effect of an instruction on a running machine keeps the invariant. -/
theorem Effect.inv (he : Effect s i t) (h : s.Inv) (hrun : s.status = .running) : t.Inv := by
  cases he with
  | halt | retHalt => exact h.halt hrun
  | noop | fallThrough => exact h.advance hrun _
  | jump => exact h.jump hrun _
  | badSlot | divideByZero | badAddress | overflow | underflow => exact h.raise (by decide) (by decide) _
  | unary | binary | load => exact (h.setReg _ _).advance hrun _
  | store ha hb hm => exact (h.setMem (Memory.write_wf h.memory hm)).advance hrun _
  | push hv hf => exact (h.setStack_cons hf _).advance hrun _
  | call hu hf => exact (h.setStack_cons hf _).jump hrun _
  | pop hs => exact ((h.setStack_tail hs).setReg _ _).advance hrun _
  | ret hs => exact (h.setStack_tail hs).jump hrun _
  | out => exact (h.emit _).advance hrun _
  | inQueue hq =>
    have htake := h.takeCharacter (hq ▸ h.queue) (hq ▸ h.queueBound)
    exact (htake.setReg _ _).advance hrun _
  | @inRefill _ _ _ lines hq hc hl =>
    have htake := (h.setConsole lines).takeCharacter (queueOk_line hl) (within_of_lineOk hl)
    exact (htake.setReg _ _).advance hrun _

end Sys2Proof.Machine

namespace Sys2Proof.Proofs

open Sys2Proof Sys2Proof.Machine

/-- Settles O21: an effect of an instruction by `Effect.inv`, a fetch that failed by `State.Inv.raise`. -/
theorem stepKeepsInvariant : Obligations.StepKeepsInvariant := by
  intro s t h hstep
  obtain ⟨hrun, ⟨i, he⟩ | ⟨k, info, rfl | rfl, rfl⟩⟩ := effect_or_raise_of_step hstep
  · exact he.inv h hrun
  · exact h.raise (by decide) (by decide) info
  · exact h.raise (by decide) (by decide) info

/-- Settles O20: `State.reset` is reset with the empty image and the default parameters. -/
theorem resetMeetsInvariant : Obligations.ResetMeetsInvariant :=
  State.boot_inv [] Params.default (Nat.zero_le _)

/-- Settles O22: WMEM keeps the size, and OUT appends. -/
theorem sizeConstantAndOutputGrows : Obligations.SizeConstantAndOutputGrows := by
  intro s t hstep
  obtain ⟨-, ⟨i, he⟩ | ⟨k, info, -, rfl⟩⟩ := effect_or_raise_of_step hstep
  · refine ⟨?_, he.params_eq, ?_⟩
    · obtain hm | ⟨a, b, addr, v, -, -, -, hm⟩ := he.mem_cases
      · rw [hm]
      · exact Memory.write_size hm
    · obtain ho | ⟨a, x, -, -, ho⟩ := he.out_cases
      · rw [ho]
      · exact ⟨_, ho.symm⟩
  · exact ⟨rfl, rfl, [], List.append_nil s.out⟩

/-- Settles O24, by `Effect.pc_cases`. -/
theorem pcMovesPastInstruction : Obligations.PcMovesPastInstruction := by
  intro i s t hexec _ hrun hsets
  obtain ⟨-, hstop⟩ | hset | hpc := (effect_of_exec hexec).pc_cases
  · exact absurd hrun hstop
  · rw [hsets] at hset; cases hset
  · exact hpc

end Sys2Proof.Proofs
end

section
/-! Narrow data (10_state.md R22): values up to 32767 stay so. -/

namespace Sys2Proof.Machine

variable {s t : State} {i : Instr}

/-- A literal has 15 bits, and the registers are narrow. -/
theorem State.Narrow.resolve_le (h : s.Narrow) {a : ReadSlot} {v : Word} (ha : resolve s a = .ok v) :
    v.toNat ≤ 32767 := by
  cases a with
  | lit l =>
    cases ha
    have := l.isLt
    simp only [BitVec.toNat_setWidth]; omega
  | reg r => cases ha; exact h.1 r
  | invalid w => cases ha

theorem State.Narrow.setReg (h : s.Narrow) (r : Reg) {v : Word} (hv : v.toNat ≤ 32767) : (s.setReg r v).Narrow := by
  refine ⟨fun i => ?_, h.2⟩
  rw [State.reg_setReg]
  split
  · exact hv
  · exact h.1 i

theorem State.Narrow.setStack (h : s.Narrow) {l : List Word} (hl : ∀ v ∈ l, v.toNat ≤ 32767) : (s.setStack l).Narrow :=
  ⟨h.1, hl⟩

theorem State.Narrow.setStack_cons (h : s.Narrow) {v : Word} (hv : v.toNat ≤ 32767) :
    (s.setStack (v :: s.stack)).Narrow :=
  h.setStack (List.forall_mem_cons.2 ⟨hv, h.2⟩)

/-- The top of a narrow stack and what is below it are narrow. -/
theorem State.Narrow.of_stack_cons (h : s.Narrow) {v : Word} {rest : List Word} (hs : s.stack = v :: rest) :
    v.toNat ≤ 32767 ∧ (s.setStack rest).Narrow := by
  obtain ⟨hv, hrest⟩ := List.forall_mem_cons.1 (hs ▸ h.2)
  exact ⟨hv, h.setStack hrest⟩

theorem aluNot_le (x : Word) : (aluNot x).toNat ≤ 32767 := by
  rw [aluNot_toNat]; exact Nat.sub_le _ _

theorem aluAdd_le (x y : Word) : (aluAdd x y).toNat ≤ 32767 := by
  rw [aluAdd_toNat]; exact Nat.le_of_lt_succ (Nat.mod_lt _ (by decide))

theorem aluMul_le (x y : Word) : (aluMul x y).toNat ≤ 32767 := by
  rw [aluMul_toNat]; exact Nat.le_of_lt_succ (Nat.mod_lt _ (by decide))

theorem aluEq_le (x y : Word) : (aluEq x y).toNat ≤ 32767 := by
  obtain ⟨-, h⟩ | ⟨-, h⟩ := aluEq_cases x y <;> rw [h] <;> decide

theorem aluGt_le (x y : Word) : (aluGt x y).toNat ≤ 32767 := by
  obtain ⟨-, h⟩ | ⟨-, h⟩ := aluGt_cases x y <;> rw [h] <;> decide

theorem aluAnd_le {x : Word} (hx : x.toNat ≤ 32767) (y : Word) : (aluAnd x y).toNat ≤ 32767 := by
  rw [aluAnd_toNat]; exact Nat.and_le_left.trans hx

theorem aluOr_le {x y : Word} (hx : x.toNat ≤ 32767) (hy : y.toNat ≤ 32767) : (aluOr x y).toNat ≤ 32767 := by
  rw [aluOr_toNat]
  exact Nat.le_of_lt_succ (Nat.or_lt_two_pow (n := 15) (Nat.lt_succ_of_le hx) (Nat.lt_succ_of_le hy))

theorem aluMod_le {x : Word} (hx : x.toNat ≤ 32767) (y : Word) : (aluMod x y).toNat ≤ 32767 := by
  rw [aluMod_toNat]; exact (Nat.mod_le _ _).trans hx

/-- An instruction's registers and stack stay narrow unless RMEM loads a wide Word or CALL pushes a wide address. -/
theorem Effect.narrow (he : Effect s i t) (hinv : s.Inv) (h : s.Narrow)
    (hload : ∀ d a addr v, i = .rmem d a → resolve s a = .ok addr → s.mem.read addr.toNat = some v → v.toNat ≤ 32767)
    (hcall : ∀ a, i = .call a → s.pc.toNat < 32766) : t.Narrow := by
  cases he with
  | unary f i hx hi =>
    have hx' := h.resolve_le hx
    refine h.setReg _ ?_
    rcases hi with ⟨-, rfl⟩ | ⟨-, rfl⟩
    · exact hx'
    · exact aluNot_le _
  | binary f i hx hy hi =>
    have hx' := h.resolve_le hx
    have hy' := h.resolve_le hy
    refine h.setReg _ ?_
    rcases hi with ⟨-, rfl⟩ | ⟨-, rfl⟩ | ⟨-, rfl⟩ | ⟨-, rfl⟩ | ⟨-, rfl⟩ | ⟨-, rfl⟩ | ⟨-, rfl, -⟩
    · exact aluEq_le _ _
    · exact aluGt_le _ _
    · exact aluAdd_le _ _
    · exact aluMul_le _ _
    · exact aluAnd_le hx' _
    · exact aluOr_le hx' hy'
    · exact aluMod_le hx' _
  | load ha hv => exact h.setReg _ (hload _ _ _ _ rfl ha hv)
  | push hv hf => exact h.setStack_cons (h.resolve_le hv)
  | call hu hf =>
    have hpc := hcall _ rfl
    exact h.setStack_cons (by bv_omega)
  | pop hs => exact (h.of_stack_cons hs).2.setReg _ (h.of_stack_cons hs).1
  | ret hs => exact (h.of_stack_cons hs).2
  | inQueue hq =>
    obtain ⟨-, -, hc⟩ := queueOk_step (hq ▸ hinv.queue)
    exact h.setReg _ (hc.trans (by decide))
  | inRefill hq hc hl =>
    obtain ⟨-, -, hb⟩ := queueOk_step (queueOk_line hl)
    exact h.setReg _ (hb.trans (by decide))
  | _ => exact h

/-- Every Word of memory that an instruction changes is the value of an operand, hence narrow. -/
theorem Effect.changed_word_le (he : Effect s i t) (hwf : s.mem.wf) (h : s.Narrow) {a : Nat} {v : Word}
    (ht : t.mem.read a = some v) (hs : s.mem.read a ≠ some v) : v.toNat ≤ 32767 := by
  obtain hm | ⟨_, _, addr, x, -, -, hx, hm⟩ := he.mem_cases
  · exact absurd (hm ▸ ht) hs
  · by_cases ha : a = addr.toNat
    · subst ha
      obtain rfl : x = v := Option.some.inj ((Memory.read_write_self hwf hm).symm.trans ht)
      exact h.resolve_le hx
    · exact absurd ((Memory.read_write_ne hm ha).symm.trans ht) hs

end Sys2Proof.Machine

namespace Sys2Proof.Proofs

open Sys2Proof Sys2Proof.Machine

/-- Settles O23, by `Effect.narrow` and `Effect.changed_word_le`. -/
theorem narrowDataStaysNarrow : Obligations.NarrowDataStaysNarrow := by
  intro i s t hexec hinv h hload hcall
  have he := effect_of_exec hexec
  exact ⟨he.narrow hinv h hload hcall, fun a v => he.changed_word_le hinv.memory h⟩

end Sys2Proof.Proofs
end

section
/-! The frame of the instructions that write one register (10_state.md R23, R26). -/

namespace Sys2Proof.Machine

variable {s t : State} {i : Instr}

/-- The instructions whose whole effect is their destination register and `pc`. -/
def writesRegisterOnly : Instr → Bool
  | .set _ _ | .not _ _ | .rmem _ _ | .eq _ _ _ | .gt _ _ _ | .add _ _ _ | .mul _ _ _ | .mod _ _ _ => true
  | .and _ _ _ | .or _ _ _ => true
  | .halt | .push _ | .pop _ | .jmp _ | .jnz _ _ | .jz _ _ | .wmem _ _ | .call _ | .ret => false
  | .out _ | .inp _ | .noop => false

/-- By exclusion: every other part of the state has its own few instructions that change it, none of them these. -/
theorem Effect.frame_of_writesRegisterOnly (he : Effect s i t) (hi : writesRegisterOnly i = true) :
    SameMemory s t ∧ t.stack = s.stack ∧ SameConsole s t ∧ SameStatusOrFault s t := by
  have hmem : t.mem = s.mem := he.mem_cases.resolve_right (by rintro ⟨_, _, _, _, rfl, -⟩; cases hi)
  have hstack : t.stack = s.stack := he.stack_cases.resolve_right (by
    rintro (⟨_, -, -, _, ⟨rfl, -⟩ | ⟨rfl, -⟩⟩ | ⟨_, -, ⟨_, rfl⟩ | rfl⟩) <;> cases hi)
  have hout : t.out = s.out := he.out_cases.resolve_right (by rintro ⟨_, _, rfl, -⟩; cases hi)
  obtain ⟨hinq, hconIn⟩ := he.input_cases.resolve_right (by rintro ⟨_, rfl⟩; cases hi)
  have hstatus := he.status_cases.resolve_right (by rintro ⟨-, rfl | ⟨rfl, -⟩⟩ <;> cases hi)
  exact ⟨sameMemory_of_mem_eq hmem, hstack, ⟨hinq, hconIn, hout⟩, hstatus⟩

end Sys2Proof.Machine

namespace Sys2Proof.Proofs

open Sys2Proof Sys2Proof.Machine

/-- Settles O55, by `Effect.frame_of_writesRegisterOnly` and the frames of the registers and the parameters. -/
theorem frameOfRegisterInstructions : Obligations.FrameOfRegisterInstructions := by
  intro d a b s t i hmem hexec
  have hi : i.dest? = some d ∧ writesRegisterOnly i = true := by
    simp only [List.mem_cons, List.not_mem_nil, or_false] at hmem
    rcases hmem with rfl | rfl | rfl | rfl | rfl | rfl | rfl | rfl | rfl | rfl <;> exact ⟨rfl, rfl⟩
  obtain ⟨hdest, honly⟩ := hi
  have he := effect_of_exec hexec
  obtain ⟨hmemory, hstack, hconsole, hstatus⟩ := he.frame_of_writesRegisterOnly honly
  exact ⟨hdest ▸ he.sameRegs, hmemory, hstack, hconsole, he.params_eq, hstatus⟩

end Sys2Proof.Proofs
end

section
/-! The memory primitives (20_memory.md R51), both ways, and the store that the next fetch sees (R61). -/

namespace Sys2Proof.Machine

variable {s t : State}

theorem Memory.read_of_lt {m : Memory} {a : Nat} (h : a < m.size) : ∃ w, m.read a = some w :=
  ⟨_, if_pos h⟩

theorem Memory.write_of_lt {m : Memory} {a : Nat} (h : a < m.size) (v : Word) : ∃ m', m.write a v = some m' :=
  ⟨_, if_pos h⟩

theorem withMemRead_ok {a v : Word} (h : s.mem.read a.toNat = some v) (k : Word → Result) :
    withMemRead a s k = k v := by
  simp only [withMemRead, h]

theorem withMemRead_of_size_le {a : Word} (h : s.mem.size ≤ a.toNat) (k : Word → Result) :
    withMemRead a s k = .next (s.raise .addressError a) := by
  simp only [withMemRead, Memory.read_eq_none_iff.2 h]

theorem withMemWrite_ok {a v : Word} {m : Memory} (h : s.mem.write a.toNat v = some m) (k : State → Result) :
    withMemWrite a v s k = k (s.setMem m) := by
  simp only [withMemWrite, h]

theorem withMemWrite_of_size_le {a : Word} (h : s.mem.size ≤ a.toNat) (v : Word) (k : State → Result) :
    withMemWrite a v s k = .next (s.raise .addressError a) := by
  simp only [withMemWrite, Memory.write_eq_none_iff.2 h]

/-- 46_memory_ops.md R161, on operands that have values and an address in bounds. -/
theorem exec_wmem_of_write {a b : ReadSlot} {addr v : Word} {m : Memory} (ha : resolve s a = .ok addr)
    (hb : resolve s b = .ok v) (hm : s.mem.write addr.toNat v = some m) :
    exec (.wmem a b) s = .next ((s.setMem m).advance 3) :=
  calc exec (.wmem a b) s
    _ = withRead b s fun v => withMemWrite addr v s fun s' => .next (s'.advance 3) := withRead_ok _ ha
    _ = withMemWrite addr v s fun s' => .next (s'.advance 3) := withRead_ok _ hb
    _ = .next ((s.setMem m).advance 3) := withMemWrite_ok hm _

/-- The Words decoded begin with the one at `pc` (40_dispatch.md R91). -/
theorem State.head?_fetchWords (s : State) : s.fetchWords.head? = s.mem.read s.pc.toNat := by
  cases h : s.mem.read s.pc.toNat <;> simp only [State.fetchWords, Memory.window, h, List.head?]

end Sys2Proof.Machine

namespace Sys2Proof.Proofs

open Sys2Proof Sys2Proof.Machine

/-- Settles O25: out of bounds by the fault of each primitive, in bounds by the laws of `Memory.read` and
`Memory.write`. -/
theorem memoryPrimitives : Obligations.MemoryPrimitives := by
  intro s a v hwf
  refine ⟨fun hout k k' => ⟨withMemRead_of_size_le hout k, withMemWrite_of_size_le hout v k'⟩, fun hin => ⟨?_, ?_⟩⟩
  · obtain ⟨w, hw⟩ := Memory.read_of_lt hin
    exact ⟨w, fun k => ⟨hw, withMemRead_ok hw k⟩⟩
  · obtain ⟨m, hm⟩ := Memory.write_of_lt hin v
    exact ⟨m, withMemWrite_ok hm, Memory.write_size hm, Memory.read_write_self hwf hm,
      fun b hb => Memory.read_write_ne hm hb⟩

/-- Settles O26: the store ends with `pc` at the address stored to, and the Word there is read back. -/
theorem storeSeenByNextFetch : Obligations.StoreSeenByNextFetch := by
  intro s t a b v hwf ha hb hin hexec
  obtain ⟨m, hm⟩ := Memory.write_of_lt hin v
  obtain rfl : (s.setMem m).advance 3 = t :=
    Host.Outcome.next.inj ((exec_wmem_of_write ha hb hm).symm.trans hexec)
  exact ⟨rfl, (State.head?_fetchWords _).trans (Memory.read_write_self hwf hm)⟩

end Sys2Proof.Proofs
end

section
/-! The loader (20_memory.md R53, R54): which byte streams make Words, and which Words. -/

namespace Sys2Proof.Machine

variable {bytes : List Byte} {image : List Word}

theorem wordsOfBytes_cons_cons (lo hi : Byte) (rest : List Byte) :
    wordsOfBytes (lo :: hi :: rest) = (wordsOfBytes rest).map (BitVec.ofNat 16 (lo.toNat + 256 * hi.toNat) :: ·) := by
  rw [wordsOfBytes]
  cases wordsOfBytes rest <;> rfl

theorem wordsOfBytes_eq_none_iff : ∀ {bytes : List Byte}, wordsOfBytes bytes = none ↔ bytes.length % 2 = 1
  | [] | [_] => by simp [wordsOfBytes]
  | lo :: hi :: rest => by
    rw [wordsOfBytes_cons_cons, Option.map_eq_none_iff, wordsOfBytes_eq_none_iff (bytes := rest), List.length_cons,
      List.length_cons, Nat.add_assoc, Nat.add_mod_right]

/-- Two bytes make a Word. -/
theorem length_of_wordsOfBytes : ∀ {bytes : List Byte} {image : List Word}, wordsOfBytes bytes = some image →
    2 * image.length = bytes.length
  | [], _, h => by cases h; rfl
  | [_], _, h => by cases h
  | lo :: hi :: rest, image, h => by
    rw [wordsOfBytes_cons_cons, Option.map_eq_some_iff] at h
    obtain ⟨ws, hws, rfl⟩ := h
    have hlen := length_of_wordsOfBytes hws
    simp only [List.length_cons]; omega

/-- The earlier byte of a Word is the low one. -/
theorem getElem?_of_wordsOfBytes : ∀ {bytes : List Byte} {image : List Word} {i : Nat} {lo hi : Byte},
    wordsOfBytes bytes = some image → bytes[2 * i]? = some lo → bytes[2 * i + 1]? = some hi →
    image[i]? = some (BitVec.ofNat 16 (lo.toNat + 256 * hi.toNat))
  | [], _, _, _, _, _, hlo, _ => by cases hlo
  | [_], _, _, _, _, h, _, _ => by cases h
  | _ :: _ :: rest, _, i, lo, hi, h, hlo, hhi => by
    rw [wordsOfBytes_cons_cons, Option.map_eq_some_iff] at h
    obtain ⟨ws, hws, rfl⟩ := h
    cases i with
    | zero => cases hlo; cases hhi; rfl
    | succ j => exact getElem?_of_wordsOfBytes (i := j) hws hlo hhi

/-- 92_eei_decisions.md D1. -/
theorem loadImage_oversize (h : 65536 < bytes.length) : loadImage (some bytes) = .error .corruptImage :=
  if_pos h

theorem loadImage_odd (h : bytes.length % 2 = 1) : loadImage (some bytes) = .error .corruptImage := by
  simp only [loadImage, wordsOfBytes_eq_none_iff.2 h, ite_self]

theorem loadImage_ok (hlen : bytes.length ≤ 65536) (h : wordsOfBytes bytes = some image) :
    loadImage (some bytes) = .ok image := by
  simp only [loadImage, h, if_neg (Nat.not_lt.2 hlen)]

/-- The sum of a low byte and 256 times a high byte fits in a Word. -/
theorem toNat_littleEndian (lo hi : Byte) :
    (BitVec.ofNat 16 (lo.toNat + 256 * hi.toNat)).toNat = lo.toNat + 256 * hi.toNat := by
  have hlo := lo.isLt
  have hhi := hi.isLt
  rw [BitVec.toNat_ofNat]
  omega

end Sys2Proof.Machine

namespace Sys2Proof.Proofs

open Sys2Proof Sys2Proof.Machine

/-- Settles O19: the Words exist exactly when no byte is left over, and each is read off its two bytes. -/
theorem loaderDeliversLittleEndianWords : Obligations.LoaderDeliversLittleEndianWords := by
  refine ⟨rfl, fun bytes => ⟨fun hbad => hbad.elim loadImage_odd loadImage_oversize, fun heven hlen => ?_⟩⟩
  have hsome : wordsOfBytes bytes ≠ none := fun hnone => by
    have hodd := wordsOfBytes_eq_none_iff.1 hnone
    omega
  obtain ⟨image, himage⟩ := Option.ne_none_iff_exists'.1 hsome
  exact ⟨image, loadImage_ok hlen himage, length_of_wordsOfBytes himage, fun i lo hi hlo hhi =>
    ⟨_, getElem?_of_wordsOfBytes himage hlo hhi, toNat_littleEndian lo hi⟩⟩

end Sys2Proof.Proofs
end

section
/-! The frames of the stack instructions (20_memory.md R63): memory is WMEM's alone, the console IN's and OUT's. -/

namespace Sys2Proof.Machine

variable {s t : State} {i : Instr}

/-- 20_memory.md R64. -/
theorem Effect.sameMemory (he : Effect s i t) (hi : ∀ a b, i ≠ .wmem a b) : SameMemory s t :=
  sameMemory_of_mem_eq (he.mem_cases.resolve_right fun ⟨a, b, _, _, h, _⟩ => hi a b h)

/-- 48_io.md R180, R181. -/
theorem Effect.sameConsole (he : Effect s i t) (hin : ∀ d, i ≠ .inp d) (hout : ∀ a, i ≠ .out a) : SameConsole s t := by
  obtain ⟨hinq, hconIn⟩ := he.input_cases.resolve_right fun ⟨r, h⟩ => hin (.reg r) h
  exact ⟨hinq, hconIn, he.out_cases.resolve_right fun ⟨a, _, h, _⟩ => hout a h⟩

/-- Only HALT and RET can halt (60_exceptions.md R212). -/
theorem Effect.sameStatusOrFault (he : Effect s i t) (hhalt : i ≠ .halt) (hret : i ≠ .ret) : SameStatusOrFault s t :=
  he.status_cases.resolve_right fun ⟨_, h⟩ => h.elim hhalt fun h => hret h.1

/-- 47_call_ret.md R171. -/
theorem exec_ret_of_cons {u : Word} {rest : List Word} (hs : s.stack = u :: rest) :
    exec .ret s = .next ((s.setStack rest).jump u) := by
  simp only [exec, execRet, hs]

/-- 92_eei_decisions.md D8. -/
theorem exec_ret_of_nil (hs : s.stack = []) : exec .ret s = .next s.halt := by
  simp only [exec, execRet, hs]

end Sys2Proof.Machine

namespace Sys2Proof.Proofs

open Sys2Proof Sys2Proof.Machine

/-- Settles O56: every part but the stack by exclusion, the stack by `Effect.stack_cases`. -/
theorem frameOfPushPopCall : Obligations.FrameOfPushPopCall := by
  intro d a s t i hmem hexec
  have hi : i = .push a ∨ i = .pop d ∨ i = .call a := by
    simpa only [List.mem_cons, List.not_mem_nil, or_false] using hmem
  have he := effect_of_exec hexec
  refine ⟨he.sameRegs, he.sameMemory ?_, he.sameConsole ?_ ?_, he.params_eq, he.sameStatusOrFault ?_ ?_, ?stack⟩
  case stack =>
    obtain hsame | ⟨v, hcons, -, _, ⟨rfl, -⟩ | ⟨rfl, -⟩⟩ | ⟨v, htop, ⟨r, rfl⟩ | rfl⟩ := he.stack_cases
    · exact .inl hsame
    · exact .inr (.inl ⟨v, hcons, nofun⟩)
    · exact .inr (.inl ⟨v, hcons, nofun⟩)
    · exact .inr (.inr ⟨v, htop, hi.elim nofun fun h => h.elim id nofun⟩)
    · exact hi.elim nofun fun h => h.elim nofun nofun
  all_goals rcases hi with rfl | rfl | rfl <;> nofun

/-- Settles O57: everything but the stack and the status by exclusion, those by whether the stack is empty. -/
theorem frameOfRet : Obligations.FrameOfRet := by
  intro s t hexec
  have he := effect_of_exec hexec
  refine ⟨he.sameRegs, he.sameMemory nofun, he.sameConsole nofun nofun, he.params_eq, ?_⟩
  cases hs : s.stack with
  | nil =>
    obtain rfl : s.halt = t := Host.Outcome.next.inj ((exec_ret_of_nil hs).symm.trans hexec)
    exact ⟨rfl, .inr ⟨rfl, hs, rfl, rfl⟩⟩
  | cons u rest =>
    obtain rfl : (s.setStack rest).jump u = t := Host.Outcome.next.inj ((exec_ret_of_cons hs).symm.trans hexec)
    exact ⟨rfl, .inl ⟨u, rfl, rfl⟩⟩

end Sys2Proof.Proofs
end

section
/-! The decoder (30_encoding.md R70 to R81): what it reads from the Words of an instruction of each format, and once,
everything it can answer. -/

namespace Sys2Proof

variable {op : Word} {ws rest : List Word} {i : Instr} {d : DestSlot} {a b : ReadSlot}

theorem Instr.canonical_iff :
    i.canonical = true ↔ (∀ d, i.dest? = some d → d.canonical = true) ∧ ∀ a ∈ i.reads, a.canonical = true := by
  simp only [Instr.canonical, Bool.and_eq_true, Option.all_eq_true, List.all_eq_true]

/-! The operand Words of each format: canonical slots are read back from their Words. -/

theorem operandsR_toWord (mk : ReadSlot → Instr) (ha : a.canonical = true) :
    operandsR mk (a.toWord :: rest) = .ok (mk a, rest) := by
  rw [operandsR, ReadSlot.ofWord_toWord ha]

theorem operandsD_toWord (mk : DestSlot → Instr) (hd : d.canonical = true) :
    operandsD mk (d.toWord :: rest) = .ok (mk d, rest) := by
  rw [operandsD, DestSlot.ofWord_toWord hd]

theorem operandsDR_toWord (mk : DestSlot → ReadSlot → Instr) (hd : d.canonical = true) (ha : a.canonical = true) :
    operandsDR mk (d.toWord :: a.toWord :: rest) = .ok (mk d a, rest) := by
  rw [operandsDR, DestSlot.ofWord_toWord hd, ReadSlot.ofWord_toWord ha]

theorem operandsRR_toWord (mk : ReadSlot → ReadSlot → Instr) (ha : a.canonical = true) (hb : b.canonical = true) :
    operandsRR mk (a.toWord :: b.toWord :: rest) = .ok (mk a b, rest) := by
  rw [operandsRR, ReadSlot.ofWord_toWord ha, ReadSlot.ofWord_toWord hb]

theorem operandsDRR_toWord (mk : DestSlot → ReadSlot → ReadSlot → Instr) (hd : d.canonical = true)
    (ha : a.canonical = true) (hb : b.canonical = true) :
    operandsDRR mk (d.toWord :: a.toWord :: b.toWord :: rest) = .ok (mk d a b, rest) := by
  rw [operandsDRR, DestSlot.ofWord_toWord hd, ReadSlot.ofWord_toWord ha, ReadSlot.ofWord_toWord hb]

/-- The opcode Word selects the format (R78), whose slots are then read back one by one. -/
theorem decode_encode_append (h : i.canonical = true) (rest : List Word) :
    decode (encode i ++ rest) = .ok (i, rest) := by
  obtain ⟨hdest, hreads⟩ := Instr.canonical_iff.1 h
  cases i with
  | halt | ret | noop => rfl
  | push | jmp | call | out => exact operandsR_toWord _ (hreads _ (.head _))
  | pop | inp => exact operandsD_toWord _ (hdest _ rfl)
  | set | not | rmem => exact operandsDR_toWord _ (hdest _ rfl) (hreads _ (.head _))
  | jnz | jz | wmem => exact operandsRR_toWord _ (hreads _ (.head _)) (hreads _ (.tail _ (.head _)))
  | eq | gt | add | mul | mod | and | or =>
    exact operandsDRR_toWord _ (hdest _ rfl) (hreads _ (.head _)) (hreads _ (.tail _ (.head _)))

/-- A row of the opcode map (R78): the opcode Word and the slots of an instruction. -/
structure Instr.Row (i : Instr) (op : Word) (dest : Option DestSlot) (reads : List ReadSlot) : Prop where
  opcode : op.toNat = i.opcode.toNat
  dest : i.dest? = dest
  reads : i.reads = reads

/-- An instruction whose slots are the readings of Words is encoded by those Words. -/
theorem Instr.Row.encode_eq {wd : Option Word} {wr : List Word}
    (h : i.Row op (wd.map DestSlot.ofWord) (wr.map ReadSlot.ofWord)) : encode i = op :: (wd.toList ++ wr) := by
  have hdest : DestSlot.toWord ∘ DestSlot.ofWord = id := funext fun w => (DestSlot.toWord_ofWord w).1
  have hread : ReadSlot.toWord ∘ ReadSlot.ofWord = id := funext fun w => (ReadSlot.toWord_ofWord w).1
  rw [encode, h.dest, h.reads, ← BitVec.eq_of_toNat_eq h.opcode, Option.toList_map, List.map_map, List.map_map, hdest,
    hread, List.map_id, List.map_id]

theorem Instr.Row.canonical {wd : Option Word} {wr : List Word}
    (h : i.Row op (wd.map DestSlot.ofWord) (wr.map ReadSlot.ofWord)) : i.canonical = true := by
  refine Instr.canonical_iff.2 ⟨fun d hd => ?_, fun a ha => ?_⟩
  · obtain ⟨w, -, rfl⟩ := Option.map_eq_some_iff.1 (h.dest.symm.trans hd)
    exact (DestSlot.toWord_ofWord w).2
  · obtain ⟨w, -, rfl⟩ := List.mem_map.1 (h.reads ▸ ha)
    exact (ReadSlot.toWord_ofWord w).2

/-- What decoding an opcode Word and the Words after it can answer; the offset of a Word that is missing is in
`decode_missingWord`. -/
inductive DecodeAnswer (op : Word) : List Word → Decoded → Prop where
  | instr {i : Instr} {rest : List Word} (wd : Option Word) (wr : List Word)
    (hrow : i.Row op (wd.map DestSlot.ofWord) (wr.map ReadSlot.ofWord)) :
    DecodeAnswer op (wd.toList ++ wr ++ rest) (.ok (i, rest))
  | missing (ws : List Word) (offset : Nat) : DecodeAnswer op ws (.error (.missingWord offset))
  | unknown (ws : List Word) (h : 22 ≤ op.toNat) : DecodeAnswer op ws (.error (.unknownOpcode op))

theorem operandsR_answer {mk : ReadSlot → Instr} (hmk : ∀ a, (mk a).Row op none [a]) :
    DecodeAnswer op ws (operandsR mk ws) := by
  match ws with
  | [] => exact .missing _ _
  | w1 :: _ => exact .instr none [w1] (hmk _)

theorem operandsD_answer {mk : DestSlot → Instr} (hmk : ∀ d, (mk d).Row op (some d) []) :
    DecodeAnswer op ws (operandsD mk ws) := by
  match ws with
  | [] => exact .missing _ _
  | w1 :: _ => exact .instr (some w1) [] (hmk _)

theorem operandsDR_answer {mk : DestSlot → ReadSlot → Instr} (hmk : ∀ d a, (mk d a).Row op (some d) [a]) :
    DecodeAnswer op ws (operandsDR mk ws) := by
  match ws with
  | [] | [_] => exact .missing _ _
  | w1 :: w2 :: _ => exact .instr (some w1) [w2] (hmk _ _)

theorem operandsRR_answer {mk : ReadSlot → ReadSlot → Instr} (hmk : ∀ a b, (mk a b).Row op none [a, b]) :
    DecodeAnswer op ws (operandsRR mk ws) := by
  match ws with
  | [] | [_] => exact .missing _ _
  | w1 :: w2 :: _ => exact .instr none [w1, w2] (hmk _ _)

theorem operandsDRR_answer {mk : DestSlot → ReadSlot → ReadSlot → Instr}
    (hmk : ∀ d a b, (mk d a b).Row op (some d) [a, b]) : DecodeAnswer op ws (operandsDRR mk ws) := by
  match ws with
  | [] | [_] | [_, _] => exact .missing _ _
  | w1 :: w2 :: w3 :: _ => exact .instr (some w1) [w2, w3] (hmk _ _ _)

/-- By the format that the opcode Word selects (R73, R78): case `h_n` is the opcode `n - 1`, and the last one is the
opcodes that the map leaves out (R81). -/
theorem decode_answer (op : Word) (ws : List Word) : DecodeAnswer op ws (decode (op :: ws)) := by
  change DecodeAnswer op ws (decodeOperands op ws)
  unfold decodeOperands
  split
  case h_1 hop | h_19 hop | h_22 hop => exact .instr none [] ⟨hop, rfl, rfl⟩
  case h_3 hop | h_7 hop | h_18 hop | h_20 hop => exact operandsR_answer fun _ => ⟨hop, rfl, rfl⟩
  case h_4 hop | h_21 hop => exact operandsD_answer fun _ => ⟨hop, rfl, rfl⟩
  case h_2 hop | h_15 hop | h_16 hop => exact operandsDR_answer fun _ _ => ⟨hop, rfl, rfl⟩
  case h_8 hop | h_9 hop | h_17 hop => exact operandsRR_answer fun _ _ => ⟨hop, rfl, rfl⟩
  case h_5 hop | h_6 hop | h_10 hop | h_11 hop | h_12 hop | h_13 hop | h_14 hop =>
    exact operandsDRR_answer fun _ _ _ => ⟨hop, rfl, rfl⟩
  case h_23 =>
    simp only [imp_false] at *
    exact .unknown _ (by omega)

/-- 30_encoding.md R81. -/
theorem decode_of_22_le (h : 22 ≤ op.toNat) (ws : List Word) : decode (op :: ws) = .error (.unknownOpcode op) := by
  change decodeOperands op ws = _
  unfold decodeOperands
  split
  case h_23 => rfl
  all_goals omega

end Sys2Proof

namespace Sys2Proof.Proofs

open Sys2Proof Sys2Proof.Machine

/-- Settles O2, by `decode_encode_append`. -/
theorem decodeOfEncode : Obligations.DecodeOfEncode :=
  fun _ rest h => decode_encode_append h rest

/-- Settles O3: an answer that is an instruction has the Words of its row. -/
theorem encodeOfDecode : Obligations.EncodeOfDecode := by
  intro ws rest i h
  match ws, h with
  | [], h => cases h
  | op :: ws, h =>
    have hanswer := decode_answer op ws
    rw [h] at hanswer
    cases hanswer with
    | instr wd wr hrow => exact ⟨by rw [hrow.encode_eq, List.cons_append], hrow.canonical⟩

/-- Settles O9: of the decoder's answers only one names an unknown opcode, and the Words fetched begin with the one at
`pc`. -/
theorem unknownOpcodeFrom22IsRaised : Obligations.UnknownOpcodeFrom22IsRaised := by
  refine ⟨fun op op' ws => ⟨fun h => ?_, ?_⟩, fun s op hrun hread hop => ?_⟩
  · have hanswer := decode_answer op ws
    rw [h] at hanswer
    cases hanswer with
    | unknown _ hop => exact ⟨rfl, hop⟩
  · rintro ⟨rfl, hop⟩
    exact decode_of_22_le hop ws
  · obtain ⟨ws, hws⟩ := List.head?_eq_some_iff.1 ((State.head?_fetchWords s).trans hread)
    exact step_of_decode_error hrun (hws ▸ decode_of_22_le hop ws)

/-- Settles O1: each image is the encoding of its reading, with the later Words after it; 99 is above the opcode map. -/
theorem sourceImagesDecodeAsRead : Obligations.SourceImagesDecodeAsRead :=
  ⟨decode_encode_append (i := .set (.reg 0) (.lit 76)) rfl _, decode_encode_append (i := .out (.reg 0)) rfl _,
    decode_encode_append (i := .halt) rfl _, decode_encode_append (i := .push (.lit 5)) rfl _,
    decode_encode_append (i := .push (.lit 7)) rfl _, decode_encode_append (i := .pop (.reg 0)) rfl _,
    decode_encode_append (i := .pop (.reg 1)) rfl _, decode_encode_append (i := .add (.reg 0) (.lit 4) (.lit 5)) rfl _,
    decode_encode_append (i := .mod (.reg 0) (.lit 4) (.lit 0)) rfl _, decode_of_22_le (by decide)⟩

/-- Settles O4: the value of a literal is the Word it was read from, by `ReadSlot.toWord_ofWord`. -/
theorem resolveOfEveryWord : Obligations.ResolveOfEveryWord := by
  intro s w
  refine ⟨fun hlit => ?_, fun r hreg => ?_, fun hinvalid => ?_⟩
  · have hword := (ReadSlot.toWord_ofWord w).1
    rw [ReadSlot.ofWord_lit (Nat.lt_succ_of_le hlit)] at hword ⊢
    exact congrArg Except.ok hword
  · rw [ReadSlot.ofWord_reg hreg, resolve_reg]
  · rw [ReadSlot.ofWord_invalid hinvalid, resolve_invalid]

/-- Settles O5, by how the Word reads in a destination slot. -/
theorem destinationOfEveryWord : Obligations.DestinationOfEveryWord := by
  intro w
  refine ⟨fun r hreg => ?_, fun hinvalid => ?_⟩
  · rw [DestSlot.ofWord_reg hreg]; rfl
  · rw [DestSlot.ofWord_invalid hinvalid]; rfl

end Sys2Proof.Proofs
end

section
/-! The fetch (40_dispatch.md R91 to R93): the window at `pc` begins with the Words of the instruction, or is those of
them that memory holds. -/

namespace Sys2Proof

/-- 30_encoding.md R70. -/
theorem length_encode_le (i : Instr) : (encode i).length ≤ 4 := by
  cases i <;> exact Nat.le_of_ble_eq_true rfl

/-- The first operand Word that is missing is named by its offset, whatever the Words before it (92_eei_decisions.md D6). -/
theorem decode_take_encode {i : Instr} {n : Nat} (hpos : 0 < n) (hlt : n < (encode i).length) :
    decode ((encode i).take n) = .error (.missingWord n) := by
  cases i with
  | halt | ret | noop => exact absurd hlt (Nat.not_lt.2 hpos)
  | push | pop | jmp | call | out | inp =>
    obtain rfl : n = 1 := Nat.le_antisymm (Nat.le_of_lt_succ hlt) hpos
    rfl
  | set | not | rmem | jnz | jz | wmem =>
    have hlt3 : n < 3 := hlt
    interval_cases n <;> rfl
  | eq | gt | add | mul | mod | and | or =>
    have hlt4 : n < 4 := hlt
    interval_cases n <;> rfl

end Sys2Proof

namespace Sys2Proof.Machine

variable {s : State} {i : Instr}

theorem State.decode_fetchWords (hi : i.canonical = true)
    (hread : ∀ n < (encode i).length, s.mem.read (s.pc.toNat + n) = (encode i)[n]?) :
    ∃ rest, decode s.fetchWords = .ok (i, rest) := by
  obtain ⟨rest, hwords⟩ := s.mem.window_eq_append (encode i) s.pc.toNat 4 (length_encode_le i) hread
  exact ⟨rest, (congrArg decode hwords).trans (decode_encode_append hi rest)⟩

theorem State.fetchWords_eq_take {n : Nat} (hlt : n < (encode i).length)
    (hread : ∀ m < n, s.mem.read (s.pc.toNat + m) = (encode i)[m]?) (hnone : s.mem.read (s.pc.toNat + n) = none) :
    s.fetchWords = (encode i).take n :=
  s.mem.window_eq_take (encode i) s.pc.toNat 4 n (hlt.trans_le (length_encode_le i)) hlt hread hnone

end Sys2Proof.Machine

namespace Sys2Proof.Proofs

open Sys2Proof Sys2Proof.Machine

/-- Settles O7: the Words at `pc` decode to the instruction. -/
theorem stepRunsInstructionInMemory : Obligations.StepRunsInstructionInMemory := by
  intro s i hrun hi hread
  obtain ⟨rest, hdecode⟩ := State.decode_fetchWords hi hread
  exact step_of_decode hrun hdecode

/-- Settles O10: the Words at `pc` are the first `n` of the instruction, and decoding them misses the next one. -/
theorem operandFetchOutOfBounds : Obligations.OperandFetchOutOfBounds := by
  intro s i n hrun hpos hlt hread hnone
  have hdecode : decode s.fetchWords = .error (.missingWord n) := by
    rw [State.fetchWords_eq_take hlt hread hnone, decode_take_encode hpos hlt]
  exact step_of_decode_error hrun hdecode

/-- Settles O6, by `step_of_decode`. -/
theorem stepRunsDecodedInstruction : Obligations.StepRunsDecodedInstruction :=
  fun _ _ _ hrun hdecode => step_of_decode hrun hdecode

/-- Settles O8: no Word is fetched, so the one at offset 0 is missing. -/
theorem opcodeFetchOutOfBounds : Obligations.OpcodeFetchOutOfBounds := by
  intro s hrun hout
  have hdecode : decode s.fetchWords = .error (.missingWord 0) := by
    rw [State.fetchWords_of_out_of_bounds hout, decode]
  rw [step_of_decode_error hrun hdecode, State.raiseDecode, Nat.add_zero, BitVec.ofNat_toNat, BitVec.setWidth_eq]

/-- Settles O12: the inversion of the step gives a state that was Running. -/
theorem noStepInTerminalState : Obligations.NoStepInTerminalState :=
  fun _ hstatus _ hstep => hstatus (step_next hstep).1

end Sys2Proof.Proofs
end

section
/-! Taking a fault (40_dispatch.md R97, R98): a step that ends in `Faulted` is a `State.raise`, and its kind tells the
instruction. -/

namespace Sys2Proof.Machine

variable {s t : State} {i : Instr} {k : FaultKind}

/-- 60_exceptions.md R209. -/
theorem Effect.eq_raise_of_faulted (he : Effect s i t) (hrun : s.status = .running) (hfault : t.status = .faulted k) :
    ∃ info, t = s.raise k info := by
  rcases he.status_cases with (⟨hsame, -⟩ | ⟨k', info, rfl⟩) | ⟨rfl, -⟩
  · exact absurd (hrun.symm.trans (hsame.symm.trans hfault)) nofun
  · obtain rfl : k' = k := Status.faulted.inj hfault
    exact ⟨info, rfl⟩
  · exact absurd hfault nofun

/-- 40_dispatch.md R97. -/
theorem eq_raise_of_step_faulted (h : step s = .next t) (hfault : t.status = .faulted k) :
    ∃ info, t = s.raise k info := by
  obtain ⟨hrun, ⟨i, he⟩ | ⟨k', info, -, rfl⟩⟩ := effect_or_raise_of_step h
  · exact he.eq_raise_of_faulted hrun hfault
  · obtain rfl : k' = k := Status.faulted.inj hfault
    exact ⟨info, rfl⟩

/-- 40_dispatch.md R98: the faults of an instruction that was decoded. -/
theorem Effect.fault_cases (he : Effect s i t) (hrun : s.status = .running) (hfault : t.status = .faulted k) :
    k = .addressError ∨ k = .invalidOperand ∨
    (k = .stackUnderflow ∧ (∃ r, i = .pop (.reg r)) ∧ s.stack = []) ∨
    (k = .divideByZero ∧ ∃ r a b, i = .mod (.reg r) a b ∧ resolve s b = .ok 0) ∨
    (k = .stackOverflow ∧ (∃ a, i = .push a ∨ i = .call a) ∧ s.stackFull) := by
  cases he with
  | badAddress => exact .inl (Status.faulted.inj hfault).symm
  | badSlot => exact .inr (.inl (Status.faulted.inj hfault).symm)
  | underflow hs => exact .inr (.inr (.inl ⟨(Status.faulted.inj hfault).symm, ⟨_, rfl⟩, hs⟩))
  | divideByZero hy => exact .inr (.inr (.inr (.inl ⟨(Status.faulted.inj hfault).symm, _, _, _, rfl, hy⟩)))
  | overflow hf hi => exact .inr (.inr (.inr (.inr ⟨(Status.faulted.inj hfault).symm, ⟨_, hi⟩, hf⟩)))
  | halt | retHalt => exact absurd hfault nofun
  | _ => exact absurd (hrun.symm.trans hfault) nofun

end Sys2Proof.Machine

namespace Sys2Proof.Proofs

open Sys2Proof Sys2Proof.Machine

/-- Settles O13: the state is `State.raise` of the one before. -/
theorem faultsArePrecise : Obligations.FaultsArePrecise :=
  fun _ _ _ hstep hfault => eq_raise_of_step_faulted hstep hfault

/-- Settles O14: an instruction's faults by `Effect.fault_cases`; a fetch raises AddressError or UnknownOpcode. -/
theorem executeTimeFaultsByInstruction : Obligations.ExecuteTimeFaultsByInstruction := by
  intro s t k hstep hfault
  obtain ⟨hrun, ⟨i, rest, hdecode, hexec⟩ | ⟨e, -, rfl⟩⟩ := step_next hstep
  · rcases (effect_of_exec hexec).fault_cases hrun hfault with haddress | hoperand | hrest
    · exact .inl haddress
    · exact .inr (.inl hoperand)
    · exact .inr (.inr (.inr ⟨i, rest, hdecode, hrest⟩))
  · cases e with
    | missingWord => exact .inl (Status.faulted.inj hfault).symm
    | unknownOpcode => exact .inr (.inr (.inl (Status.faulted.inj hfault).symm))

end Sys2Proof.Proofs
end

section
/-! Validating the operands (40_dispatch.md R94): the slots are asked for in memory order, so the first illegal Word is
raised whatever would be done with the values. -/

namespace Sys2Proof.Machine

variable {s : State} {w : Word}

theorem withRead_of_firstInvalid {a : ReadSlot} {as : List ReadSlot} {k : Word → Result}
    (h : (a :: as).findSome? ReadSlot.invalidWord = some w)
    (hk : as.findSome? ReadSlot.invalidWord = some w → ∀ v, k v = .next (s.raise .invalidOperand w)) :
    withRead a s k = .next (s.raise .invalidOperand w) := by
  cases a with
  | lit v => exact hk h _
  | reg r => exact hk h _
  | invalid w' =>
    obtain rfl : w' = w := Option.some.inj h
    exact withRead_invalid w' s k

theorem withDest_of_firstInvalid {d : DestSlot} {as : List ReadSlot} {k : Reg → Result}
    (h : d.invalidWord.or (as.findSome? ReadSlot.invalidWord) = some w)
    (hk : as.findSome? ReadSlot.invalidWord = some w → ∀ r, k r = .next (s.raise .invalidOperand w)) :
    withDest d s k = .next (s.raise .invalidOperand w) := by
  cases d with
  | reg r => exact hk h r
  | invalid w' =>
    obtain rfl : w' = w := Option.some.inj h
    exact withDest_invalid w' s k

/-- By the format of the instruction (30_encoding.md R73). -/
theorem exec_of_firstInvalid {i : Instr} (h : i.firstInvalid = some w) :
    exec i s = .next (s.raise .invalidOperand w) := by
  cases i with
  | halt | ret | noop => cases h
  | push | jmp | call | out => exact withRead_of_firstInvalid h nofun
  | pop | inp => exact withDest_of_firstInvalid (as := []) h nofun
  | set | not | rmem => exact withDest_of_firstInvalid h fun h _ => withRead_of_firstInvalid h nofun
  | jnz | jz | wmem => exact withRead_of_firstInvalid h fun h _ => withRead_of_firstInvalid h nofun
  | eq | gt | add | mul | mod | and | or =>
    exact withDest_of_firstInvalid h fun h _ => withRead_of_firstInvalid h fun h _ => withRead_of_firstInvalid h nofun

end Sys2Proof.Machine

namespace Sys2Proof.Proofs

open Sys2Proof Sys2Proof.Machine

/-- Settles O11, by `exec_of_firstInvalid`. -/
theorem invalidOperandIsRaisedFirst : Obligations.InvalidOperandIsRaisedFirst :=
  fun _ _ _ h => exec_of_firstInvalid h

end Sys2Proof.Proofs
end

section
/-! Completion of the step (40_dispatch.md R100): every operation but the request for a line answers a next state. -/

namespace Sys2Proof.Machine

variable {s : State} {i : Instr}

theorem withMemRead_total (a : Word) (s : State) (k : Word → Result) (hk : ∀ v, ∃ t, k v = .next t) :
    ∃ t, withMemRead a s k = .next t := by
  rcases withMemRead_cases a s k with ⟨-, h⟩ | ⟨v, -, h⟩
  · exact ⟨_, h⟩
  · rw [h]; exact hk v

theorem withMemWrite_total (a v : Word) (s : State) (k : State → Result) (hk : ∀ s', ∃ t, k s' = .next t) :
    ∃ t, withMemWrite a v s k = .next t := by
  rcases withMemWrite_cases a v s k with ⟨-, h⟩ | ⟨m, -, h⟩
  · exact ⟨_, h⟩
  · rw [h]; exact hk _

theorem withPush_total (v : Word) (s : State) (k : State → Result) (hk : ∀ s', ∃ t, k s' = .next t) :
    ∃ t, withPush v s k = .next t := by
  rcases withPush_cases v s k with ⟨-, h⟩ | ⟨-, h⟩
  · exact ⟨_, h⟩
  · rw [h]; exact hk _

theorem writeUnary_total (f : Word → Word) (d : DestSlot) (a : ReadSlot) (s : State) :
    ∃ t, writeUnary f d a s = .next t :=
  withDest_total d s _ fun _ => withRead_total a s _ fun _ => ⟨_, rfl⟩

theorem writeBinary_total (f : Word → Word → Word) (d : DestSlot) (a b : ReadSlot) (s : State) :
    ∃ t, writeBinary f d a b s = .next t :=
  withDest_total d s _ fun _ => withRead_total a s _ fun _ => withRead_total b s _ fun _ => ⟨_, rfl⟩

theorem jumpIf_total (taken : Word → Bool) (cond a : ReadSlot) (s : State) : ∃ t, jumpIf taken cond a s = .next t :=
  withRead_total cond s _ fun _ => withRead_total a s _ fun _ => ⟨_, rfl⟩

/-- 48_io.md R184: only an IN that has passed the check of its destination can wait. -/
theorem exec_total (i : Instr) (s : State) (hi : ∀ r, i ≠ .inp (.reg r)) : ∃ t, exec i s = .next t := by
  cases i with
  | halt | noop => exact ⟨_, rfl⟩
  | set d a | not d a => exact writeUnary_total _ d a s
  | eq d a b | gt d a b | add d a b | mul d a b | and d a b | or d a b => exact writeBinary_total _ d a b s
  | jnz cond a | jz cond a => exact jumpIf_total _ cond a s
  | jmp a | out a => exact withRead_total a s _ fun _ => ⟨_, rfl⟩
  | push a | call a => exact withRead_total a s _ fun _ => withPush_total _ s _ fun _ => ⟨_, rfl⟩
  | rmem d a =>
    exact withDest_total d s _ fun _ => withRead_total a s _ fun addr => withMemRead_total addr s _ fun _ => ⟨_, rfl⟩
  | wmem a b =>
    exact withRead_total a s _ fun addr => withRead_total b s _ fun v => withMemWrite_total addr v s _ fun _ => ⟨_, rfl⟩
  | mod d a b =>
    refine withDest_total d s _ fun _ => withRead_total a s _ fun _ => withRead_total b s _ fun y => ?_
    split <;> exact ⟨_, rfl⟩
  | pop d =>
    refine withDest_total d s _ fun _ => ?_
    split <;> exact ⟨_, rfl⟩
  | ret =>
    cases hs : s.stack with
    | nil => exact ⟨_, exec_ret_of_nil hs⟩
    | cons u rest => exact ⟨_, exec_ret_of_cons hs⟩
  | inp d =>
    cases d with
    | reg r => exact absurd rfl (hi r)
    | invalid w => exact ⟨_, rfl⟩

/-- 48_io.md R181, R184. -/
theorem exec_inp_reg_next_iff (r : Reg) (s : State) : (∃ t, exec (.inp (.reg r)) s = .next t) ↔ s.inputReady = true := by
  change (∃ t, execIn (.reg r) s = .next t) ↔ _
  rcases execIn_cases r s with ⟨hready, hnext⟩ | ⟨hwait, -, -, hstop⟩ | ⟨hwait, -, -, hstop⟩
  · exact iff_of_true hnext hready
  all_goals simp only [hstop, hwait, reduceCtorEq, exists_false, Bool.false_eq_true]

/-- 40_dispatch.md R100. -/
theorem exec_next_iff : (∃ t, exec i s = .next t) ↔ ∀ r, i = .inp (.reg r) → s.inputReady = true := by
  refine ⟨?_, fun h => ?_⟩
  · rintro hnext r rfl
    exact (exec_inp_reg_next_iff r s).1 hnext
  · by_cases hi : ∃ r, i = .inp (.reg r)
    · obtain ⟨r, rfl⟩ := hi
      exact (exec_inp_reg_next_iff r s).2 (h r rfl)
    · exact exec_total i s fun r hr => hi ⟨r, hr⟩

end Sys2Proof.Machine

namespace Sys2Proof.Proofs

open Sys2Proof Sys2Proof.Machine

/-- Settles O17: a fetch that fails takes its fault, and an instruction completes as `exec_next_iff` says. -/
theorem onlyInputCanSuspend : Obligations.OnlyInputCanSuspend := by
  intro s hrun
  cases hdecode : decode s.fetchWords with
  | error e => exact iff_of_true ⟨_, step_of_decode_error hrun hdecode⟩ nofun
  | ok p =>
    obtain ⟨i, rest⟩ := p
    rw [step_of_decode hrun hdecode, exec_next_iff]
    refine ⟨?_, fun hno r hi => ?_⟩
    · rintro hready ⟨r, rest', hinp, hwait⟩
      obtain ⟨rfl, rfl⟩ := Prod.mk.inj (Except.ok.inj hinp)
      exact Bool.false_ne_true (hwait.symm.trans (hready r rfl))
    · by_contra hwait
      exact hno ⟨r, rest, by rw [hi], Bool.eq_false_of_not_eq_true hwait⟩

end Sys2Proof.Proofs
end

section
/-! SET, PUSH and POP (41_move_stack.md R110 to R113): each on operands that have values, and runs of pushes and of
pops, each by induction on the instructions run. -/

namespace Sys2Proof.Machine

variable {s t : State}

theorem writeUnary_ok (f : Word → Word) (r : Reg) {a : ReadSlot} {x : Word} (h : resolve s a = .ok x) :
    writeUnary f (.reg r) a s = .next ((s.setReg r (f x)).advance 3) :=
  withRead_ok _ h

theorem withPush_of_not_full (h : ¬ s.stackFull) (v : Word) (k : State → Result) :
    withPush v s k = k (s.setStack (v :: s.stack)) :=
  if_neg h

theorem withPush_of_full (h : s.stackFull) (v : Word) (k : State → Result) :
    withPush v s k = .next (s.raise .stackOverflow 0) :=
  if_pos h

/-- 41_move_stack.md R111. -/
theorem exec_push_of_not_full {a : ReadSlot} {x : Word} (ha : resolve s a = .ok x) (h : ¬ s.stackFull) :
    exec (.push a) s = .next ((s.setStack (x :: s.stack)).advance 2) :=
  (withRead_ok _ ha).trans (withPush_of_not_full h x _)

/-- 92_eei_decisions.md D11. -/
theorem exec_push_of_full {a : ReadSlot} {x : Word} (ha : resolve s a = .ok x) (h : s.stackFull) :
    exec (.push a) s = .next (s.raise .stackOverflow 0) :=
  (withRead_ok _ ha).trans (withPush_of_full h x _)

/-- 41_move_stack.md R112. -/
theorem exec_pop_of_cons (r : Reg) {v : Word} {rest : List Word} (hs : s.stack = v :: rest) :
    exec (.pop (.reg r)) s = .next (((s.setStack rest).setReg r v).advance 2) := by
  simp only [exec, execPop, withDest_reg, hs]

/-- 60_exceptions.md R204. -/
theorem exec_pop_of_nil (r : Reg) (hs : s.stack = []) :
    exec (.pop (.reg r)) s = .next (s.raise .stackUnderflow 0) := by
  simp only [exec, execPop, withDest_reg, hs]

/-! Runs of instructions. -/

theorem execAll_cons_of_next {i : Instr} (h : exec i s = .next t) (is : List Instr) :
    execAll (i :: is) s = execAll is t := by
  simp only [execAll, h]

theorem execAll_append_of_next {is : List Instr} (h : execAll is s = .next t) (js : List Instr) :
    execAll (is ++ js) s = execAll js t := by
  induction is generalizing s with
  | nil =>
    obtain rfl : s = t := Host.Outcome.next.inj h
    rfl
  | cons i is ih =>
    cases hi : exec i s with
    | next u =>
      rw [execAll_cons_of_next hi] at h
      rw [List.cons_append, execAll_cons_of_next hi, ih h]
    | fault r => simp only [execAll, hi, reduceCtorEq] at h
    | refused r => simp only [execAll, hi, reduceCtorEq] at h

/-- `n` more entries fit on the stack (41_move_stack.md R111). -/
def State.HasRoom (s : State) (n : Nat) : Prop :=
  ∀ depth, s.params.stackDepth = some depth → s.stack.length + n ≤ depth

theorem State.HasRoom.not_stackFull {n : Nat} (h : s.HasRoom (n + 1)) : ¬ s.stackFull := fun hfull => by
  have := h _ hfull
  omega

theorem State.HasRoom.of_push {n : Nat} (h : s.HasRoom (n + 1)) (v : Word) :
    ((s.setStack (v :: s.stack)).advance 2).HasRoom n := fun depth hd => by
  have hle := h depth hd
  change s.stack.length + 1 + n ≤ depth
  omega

/-- Pushes that fit put their values on the stack, the last on top, and write no register: the later operands keep
their values. -/
theorem execAll_push {as : List ReadSlot} {vs : List Word} (hvs : List.Forall₂ (fun a v => resolve s a = .ok v) as vs)
    (hroom : s.HasRoom vs.length) :
    ∃ t, execAll (as.map Instr.push) s = .next t ∧ t.stack = vs.reverse ++ s.stack := by
  induction as generalizing s vs with
  | nil =>
    obtain rfl := List.forall₂_nil_left_iff.1 hvs
    exact ⟨s, rfl, rfl⟩
  | cons a as ih =>
    obtain ⟨v, vs, ha, has, rfl⟩ := List.forall₂_cons_left_iff.1 hvs
    have hpush := exec_push_of_not_full ha hroom.not_stackFull
    obtain ⟨t, ht, hstack⟩ := ih (s := (s.setStack (v :: s.stack)).advance 2)
      (has.imp fun a _ h => (resolve_congr rfl a).trans h) (hroom.of_push v)
    refine ⟨t, (execAll_cons_of_next hpush _).trans ht, ?_⟩
    rw [hstack, List.reverse_cons, List.append_assoc]
    rfl

/-- Pops take the entries from the top on into distinct registers; the other registers stay, so a later pop keeps what
an earlier one delivered. -/
theorem execAll_pop {ds : List Reg} {vs below : List Word} (hlen : ds.length = vs.length) (hnodup : ds.Nodup)
    (hs : s.stack = vs ++ below) :
    ∃ t, execAll (ds.map fun r => .pop (.reg r)) s = .next t ∧ t.stack = below ∧ ds.map t.reg = vs ∧
      ∀ r ∉ ds, t.reg r = s.reg r := by
  induction ds generalizing s vs with
  | nil =>
    obtain rfl := List.eq_nil_of_length_eq_zero hlen.symm
    exact ⟨s, rfl, hs, rfl, fun _ _ => rfl⟩
  | cons d ds ih =>
    obtain ⟨v, vs, rfl⟩ := List.exists_cons_of_length_eq_add_one hlen.symm
    obtain ⟨hd, hnodup⟩ := List.nodup_cons.1 hnodup
    have hpop := exec_pop_of_cons d hs
    obtain ⟨t, ht, hstack, hregs, hkeep⟩ := ih (s := ((s.setStack (vs ++ below)).setReg d v).advance 2)
      (Nat.succ.inj hlen) hnodup rfl
    refine ⟨t, (execAll_cons_of_next hpop _).trans ht, hstack, ?_, fun r hr => ?_⟩
    · have htop : t.reg d = v := (hkeep d hd).trans (State.reg_setReg_self _ d v)
      rw [List.map_cons, htop, hregs]
    · obtain ⟨hne, hr⟩ := List.ne_and_not_mem_of_not_mem_cons hr
      exact (hkeep r hr).trans (State.reg_setReg_ne _ v hne)

end Sys2Proof.Machine

namespace Sys2Proof.Proofs

open Sys2Proof Sys2Proof.Machine

/-- Settles O51: the pushes leave the values in reverse on top of the stack, and the pops take them off from there. -/
theorem pushPopRoundTrip : Obligations.PushPopRoundTrip := by
  intro s as vs ds hvs hlen hnodup hroom
  obtain ⟨u, hu, hpushed⟩ := execAll_push hvs hroom
  obtain ⟨t, ht, hstack, hregs, -⟩ := execAll_pop (hlen.trans vs.length_reverse.symm) hnodup hpushed
  exact ⟨t, (execAll_append_of_next hu _).trans ht, hstack, hregs⟩

/-- Settles O27, by `writeUnary_ok`. -/
theorem setCopiesWholeWord : Obligations.SetCopiesWholeWord :=
  ⟨fun _ _ _ => rfl, fun _ r _ _ ha => writeUnary_ok id r ha⟩

/-- Settles O28, by whether the stack is full. -/
theorem pushPutsValueOnStack : Obligations.PushPutsValueOnStack :=
  ⟨fun _ _ => rfl, fun _ _ _ ha => ⟨exec_push_of_not_full ha, exec_push_of_full ha⟩⟩

/-- Settles O29, by whether the stack is empty. -/
theorem popTakesTopOfStack : Obligations.PopTakesTopOfStack :=
  ⟨fun _ _ => rfl, fun _ r => ⟨fun _ _ => exec_pop_of_cons r, exec_pop_of_nil r⟩⟩

end Sys2Proof.Proofs
end

section
/-! EQ and GT (42_compare.md R120, R121), through the rule of the instructions of format F3DRR that only write. -/

namespace Sys2Proof.Machine

theorem writeBinary_ok {s : State} (f : Word → Word → Word) (r : Reg) {a b : ReadSlot} {x y : Word}
    (ha : resolve s a = .ok x) (hb : resolve s b = .ok y) :
    writeBinary f (.reg r) a b s = .next ((s.setReg r (f x y)).advance 4) :=
  (withRead_ok _ ha).trans (withRead_ok _ hb)

/-- An opcode of format F3DRR whose instruction is a `writeBinary` (30_encoding.md R73). -/
theorem binaryRule_of_writeBinary {op : Word} {mk : DestSlot → ReadSlot → ReadSlot → Instr}
    {f : Word → Word → Word} (hdecode : ∀ ws, decode (op :: ws) = operandsDRR mk ws)
    (hexec : ∀ d a b s, exec (mk d a b) s = writeBinary f d a b s) : BinaryRule op mk f :=
  ⟨fun _ _ _ _ => hdecode _, fun s r a b _ _ ha hb => (hexec (.reg r) a b s).trans (writeBinary_ok f r ha hb)⟩

end Sys2Proof.Machine

namespace Sys2Proof.Proofs

open Sys2Proof Sys2Proof.Machine

/-- Settles O30, by `binaryRule_of_writeBinary`: the value written is `aluEq`. -/
theorem eqWritesOneIfEqual : Obligations.EqWritesOneIfEqual :=
  binaryRule_of_writeBinary (f := aluEq) (fun _ => rfl) fun _ _ _ _ => rfl

/-- Settles O31, by `binaryRule_of_writeBinary`: the value written is `aluGt`. -/
theorem gtWritesOneIfGreaterUnsigned : Obligations.GtWritesOneIfGreaterUnsigned :=
  binaryRule_of_writeBinary (f := aluGt) (fun _ => rfl) fun _ _ _ _ => rfl

end Sys2Proof.Proofs
end

section
/-! JMP, JNZ and JZ (43_jumps.md R130 to R132), and the frame they share with NOOP and HALT (49_halt_noop.md R190,
R191). -/

namespace Sys2Proof.Machine

variable {s : State} {a : ReadSlot} {u : Word}

/-- 43_jumps.md R130. -/
theorem exec_jmp_ok (ha : resolve s a = .ok u) : exec (.jmp a) s = .next (s.jump u) :=
  withRead_ok _ ha

/-- The two ways on from a conditional jump differ in `pc` alone (43_jumps.md R131, R132). -/
theorem jumpIf_ok (taken : Word → Bool) {cond : ReadSlot} {c : Word} (hc : resolve s cond = .ok c)
    (ha : resolve s a = .ok u) :
    jumpIf taken cond a s = .next { s with pc := if taken c then u else s.pc + 3 } := by
  rw [jumpIf, withRead_ok _ hc, withRead_ok _ ha]
  cases taken c <;> rfl

end Sys2Proof.Machine

namespace Sys2Proof.Proofs

open Sys2Proof Sys2Proof.Machine

/-- Settles O58: every part but the status by exclusion, the status by `Effect.status_cases`. -/
theorem frameOfJumpsNoopHalt : Obligations.FrameOfJumpsNoopHalt := by
  intro cond a s t i hmem hexec
  have hi : i = .jmp a ∨ i = .jnz cond a ∨ i = .jz cond a ∨ i = .noop ∨ i = .halt := by
    simpa only [List.mem_cons, List.not_mem_nil, or_false] using hmem
  have he := effect_of_exec hexec
  have hdest : i.dest? = none := by rcases hi with rfl | rfl | rfl | rfl | rfl <;> rfl
  refine ⟨hdest ▸ he.sameRegs, he.sameMemory ?_, ?stack, he.sameConsole ?_ ?_, he.params_eq, ?status⟩
  case stack =>
    obtain hsame | ⟨v, -, -, b, ⟨rfl, -⟩ | ⟨rfl, -⟩⟩ | ⟨v, -, ⟨r, rfl⟩ | rfl⟩ := he.stack_cases
    · exact hsame
    all_goals simp at hi
  case status =>
    obtain hsame | ⟨rfl, rfl | ⟨rfl, -⟩⟩ := he.status_cases
    · exact .inl hsame
    · exact .inr ⟨rfl, rfl, rfl, rfl⟩
    · simp at hi
  all_goals rcases hi with rfl | rfl | rfl | rfl | rfl <;> nofun

/-- Settles O32, by `exec_jmp_ok` and, for the illegal Words, `exec_of_firstInvalid`. -/
theorem jmpGoesToTarget : Obligations.JmpGoesToTarget := by
  refine ⟨fun _ _ => rfl, fun _ _ _ ha => exec_jmp_ok ha, fun s w hw => ?_⟩
  rw [ReadSlot.ofWord_invalid hw]
  exact exec_of_firstInvalid rfl

/-- Settles O33, by `jumpIf_ok`: the jump is taken unless the condition is 0. -/
theorem jnzJumpsIfNotZero : Obligations.JnzJumpsIfNotZero :=
  ⟨fun _ _ _ => rfl, fun _ _ _ _ _ hc ha => (jumpIf_ok _ hc ha).trans (by simp only [bne_iff_ne])⟩

/-- Settles O34, by `jumpIf_ok`: the jump is taken if the condition is 0. -/
theorem jzJumpsIfZero : Obligations.JzJumpsIfZero :=
  ⟨fun _ _ _ => rfl, fun _ _ _ _ _ hc ha => (jumpIf_ok _ hc ha).trans (by simp only [beq_iff_eq])⟩

end Sys2Proof.Proofs
end

section
/-! ADD, MUL and MOD (44_arithmetic.md R140 to R144): the values ADD and MUL write by the bits 14 to 0 of their operands,
and the two cases of MOD. -/

namespace Sys2Proof.Machine

variable {s : State} {a b : ReadSlot} {x y : Word}

/-- 44_arithmetic.md R143: bits 14 to 0 of the operands decide the value. -/
theorem aluAdd_toNat_low_bits (x y : Word) :
    (aluAdd x y).toNat = (x.toNat % 32768 + y.toNat % 32768) % 32768 :=
  (aluAdd_toNat x y).trans (Nat.add_mod ..)

/-- 44_arithmetic.md R143: bits 14 to 0 of the operands decide the value. -/
theorem aluMul_toNat_low_bits (x y : Word) :
    (aluMul x y).toNat = ((x.toNat % 32768) * (y.toNat % 32768)) % 32768 :=
  (aluMul_toNat x y).trans (Nat.mul_mod ..)

/-- A value known modulo 32768 is delivered to the destination and is at most 32767 (44_arithmetic.md R144). -/
theorem writeBinary_delivers_mod {f : Word → Word → Word} {n : Nat} (r : Reg) (ha : resolve s a = .ok x)
    (hb : resolve s b = .ok y) (hf : (f x y).toNat = n % 32768) :
    ∃ t, writeBinary f (.reg r) a b s = .next t ∧ (t.reg r).toNat ≤ 32767 ∧ (t.reg r).toNat = n % 32768 := by
  have hread : (((s.setReg r (f x y)).advance 4).reg r).toNat = n % 32768 := by
    rw [State.reg_advance, State.reg_setReg_self, hf]
  have hlt : n % 32768 < 32768 := Nat.mod_lt n (by decide)
  exact ⟨_, writeBinary_ok f r ha hb, hread ▸ Nat.le_of_lt_succ hlt, hread⟩

theorem execMod_ok (r : Reg) (ha : resolve s a = .ok x) (hb : resolve s b = .ok y) :
    execMod (.reg r) a b s =
      if y = 0 then .next (s.raise .divideByZero 0) else .next ((s.setReg r (aluMod x y)).advance 4) :=
  (withRead_ok _ ha).trans (withRead_ok _ hb)

/-- 44_arithmetic.md R142. -/
theorem exec_mod_of_ne_zero (r : Reg) (ha : resolve s a = .ok x) (hb : resolve s b = .ok y) (hy : y ≠ 0) :
    exec (.mod (.reg r) a b) s = .next ((s.setReg r (aluMod x y)).advance 4) :=
  (execMod_ok r ha hb).trans (if_neg hy)

/-- 60_exceptions.md R205. -/
theorem exec_mod_of_eq_zero (r : Reg) (ha : resolve s a = .ok x) (hb : resolve s b = .ok y) (hy : y = 0) :
    exec (.mod (.reg r) a b) s = .next (s.raise .divideByZero 0) :=
  (execMod_ok r ha hb).trans (if_pos hy)

end Sys2Proof.Machine

namespace Sys2Proof.Proofs

open Sys2Proof Sys2Proof.Machine

/-- Settles O35, by `binaryRule_of_writeBinary`: the value written is `aluAdd`. -/
theorem addWritesSumModulo32768 : Obligations.AddWritesSumModulo32768 :=
  binaryRule_of_writeBinary (f := aluAdd) (fun _ => rfl) fun _ _ _ _ => rfl

/-- Settles O36, by `binaryRule_of_writeBinary`: the value written is `aluMul`. -/
theorem mulWritesProductModulo32768 : Obligations.MulWritesProductModulo32768 :=
  binaryRule_of_writeBinary (f := aluMul) (fun _ => rfl) fun _ _ _ _ => rfl

/-- Settles O37, by whether the divisor is 0. -/
theorem modWritesRemainder : Obligations.ModWritesRemainder :=
  ⟨fun _ _ _ _ => rfl, fun _ r _ _ _ _ ha hb => ⟨exec_mod_of_ne_zero r ha hb, exec_mod_of_eq_zero r ha hb⟩⟩

/-- Settles O54: a sum and a product modulo 32768 are those of the operands' remainders, and `writeBinary` delivers
them. -/
theorem addMulClosedIn15Bits : Obligations.AddMulClosedIn15Bits :=
  fun _ r _ _ x y ha hb =>
    ⟨writeBinary_delivers_mod r ha hb (aluAdd_toNat_low_bits x y),
      writeBinary_delivers_mod r ha hb (aluMul_toNat_low_bits x y)⟩

end Sys2Proof.Proofs
end

section
/-! AND, OR and NOT (45_bitwise.md R150 to R153): the values they write, bit by bit, and NOT done twice. -/

namespace Sys2Proof.Machine

/-- 45_bitwise.md R150. -/
theorem aluAnd_eq_ofFnLE : aluAnd = fun x y => BitVec.ofFnLE fun n : Fin 16 => x.getLsbD n && y.getLsbD n := by
  funext x y
  ext i hi
  rw [aluAnd, BitVec.getElem_and, BitVec.getElem_ofFnLE, BitVec.getLsbD_eq_getElem hi, BitVec.getLsbD_eq_getElem hi]

/-- 45_bitwise.md R151. -/
theorem aluOr_eq_ofFnLE : aluOr = fun x y => BitVec.ofFnLE fun n : Fin 16 => x.getLsbD n || y.getLsbD n := by
  funext x y
  ext i hi
  rw [aluOr, BitVec.getElem_or, BitVec.getElem_ofFnLE, BitVec.getLsbD_eq_getElem hi, BitVec.getLsbD_eq_getElem hi]

/-- NOT's mask keeps bits 14 to 0 and clears bit 15 (45_bitwise.md R152). -/
theorem notMask_getElem : ∀ n : Fin 16, (0x7FFF : Word)[n] = decide (n.val < 15) := by decide

/-- 45_bitwise.md R152. -/
theorem aluNot_eq_ofFnLE : aluNot = fun x => BitVec.ofFnLE fun n : Fin 16 => n.val < 15 && !x.getLsbD n := by
  funext x
  ext i hi
  have hmask : (0x7FFF : Word)[i] = decide (i < 15) := notMask_getElem ⟨i, hi⟩
  rw [aluNot, BitVec.getElem_and, BitVec.getElem_not, hmask, Bool.and_comm, BitVec.getElem_ofFnLE,
    BitVec.getLsbD_eq_getElem hi]

/-- 45_bitwise.md R152. -/
theorem exec_not_ok {s : State} (r : Reg) {a : ReadSlot} {x : Word} (ha : resolve s a = .ok x) :
    exec (.not (.reg r) a) s = .next ((s.setReg r (aluNot x)).advance 3) :=
  writeUnary_ok aluNot r ha

/-- 45_bitwise.md R153: two complements to 32767 leave bits 14 to 0 as they were. -/
theorem aluNot_aluNot_toNat (x : Word) : (aluNot (aluNot x)).toNat = x.toNat % 32768 := by
  rw [aluNot_toNat, aluNot_toNat]
  omega

/-- 45_bitwise.md R153. -/
theorem aluNot_aluNot (x : Word) : aluNot (aluNot x) = if x.toNat ≤ 32767 then x else x - 32768 := by
  refine BitVec.eq_of_toNat_eq ((aluNot_aluNot_toNat x).trans ?_)
  split
  case isTrue hle => exact Nat.mod_eq_of_lt (Nat.lt_succ_of_le hle)
  case isFalse hgt => bv_omega

end Sys2Proof.Machine

namespace Sys2Proof.Proofs

open Sys2Proof Sys2Proof.Machine

/-- Settles O53: the second NOT reads the register that the first has written, so `aluNot` is applied twice. -/
theorem notTwiceIsIdentity : Obligations.NotTwiceIsIdentity := by
  intro s r a x ha
  have hread : resolve ((s.setReg r (aluNot x)).advance 3) (.reg r) = .ok (aluNot x) :=
    congrArg Except.ok (State.reg_setReg_self s r _)
  refine ⟨_, (execAll_cons_of_next (exec_not_ok r ha) _).trans (execAll_cons_of_next (exec_not_ok r hread) _), ?_⟩
  rw [State.reg_advance, State.reg_setReg_self, aluNot_aluNot]

/-- Settles O38, by `binaryRule_of_writeBinary`: the value written is `aluAnd`, which `aluAnd_eq_ofFnLE` reads bit by
bit. -/
theorem andWritesBitwiseAnd : Obligations.AndWritesBitwiseAnd := by
  rw [Obligations.AndWritesBitwiseAnd, ← aluAnd_eq_ofFnLE]
  exact binaryRule_of_writeBinary (fun _ => rfl) fun _ _ _ _ => rfl

/-- Settles O39, by `binaryRule_of_writeBinary`: the value written is `aluOr`, which `aluOr_eq_ofFnLE` reads bit by
bit. -/
theorem orWritesBitwiseOr : Obligations.OrWritesBitwiseOr := by
  rw [Obligations.OrWritesBitwiseOr, ← aluOr_eq_ofFnLE]
  exact binaryRule_of_writeBinary (fun _ => rfl) fun _ _ _ _ => rfl

/-- Settles O40, by `exec_not_ok`: the value written is `aluNot`, which `aluNot_eq_ofFnLE` reads bit by
bit. -/
theorem notWritesComplementOf15Bits : Obligations.NotWritesComplementOf15Bits := by
  rw [Obligations.NotWritesComplementOf15Bits, ← aluNot_eq_ofFnLE]
  exact ⟨fun _ _ _ => rfl, fun _ r _ _ ha => exec_not_ok r ha⟩

end Sys2Proof.Proofs
end

section
/-! RMEM and WMEM (46_memory_ops.md R160, R161): what each does on operands that have values, in bounds and out of
bounds, the part of memory that WMEM leaves alone, and an illegal operand Word of WMEM. -/

namespace Sys2Proof

/-- 30_encoding.md R75: a Word below 32776 is no illegal operand. -/
theorem ReadSlot.invalidWord_ofWord_of_lt {w : Word} (h : w.toNat < 32776) :
    (ReadSlot.ofWord w).invalidWord = none := by
  rcases word_cases w with hlit | ⟨r, hreg⟩ | hinvalid
  · rw [ReadSlot.ofWord_lit hlit, ReadSlot.invalidWord]
  · rw [ReadSlot.ofWord_reg hreg, ReadSlot.invalidWord]
  · exact absurd h (Nat.not_lt.2 hinvalid)

/-- 40_dispatch.md R94, for two read slots: the second is asked for only after a legal first. -/
theorem Instr.firstInvalid_wmem (a b : ReadSlot) :
    (Instr.wmem a b).firstInvalid = a.invalidWord.or b.invalidWord := by
  cases a <;> cases b <;> rfl

end Sys2Proof

namespace Sys2Proof.Machine

variable {s t : State} {a b : ReadSlot} {addr v : Word}

theorem exec_rmem_ok (r : Reg) (ha : resolve s a = .ok addr) :
    exec (.rmem (.reg r) a) s = withMemRead addr s fun v => .next ((s.setReg r v).advance 3) :=
  withRead_ok _ ha

/-- 46_memory_ops.md R160, on an address in bounds. -/
theorem exec_rmem_of_read (r : Reg) (ha : resolve s a = .ok addr) (hv : s.mem.read addr.toNat = some v) :
    exec (.rmem (.reg r) a) s = .next ((s.setReg r v).advance 3) :=
  (exec_rmem_ok r ha).trans (withMemRead_ok hv _)

/-- 46_memory_ops.md R160, on an address out of bounds. -/
theorem exec_rmem_of_size_le (r : Reg) (ha : resolve s a = .ok addr) (h : s.mem.size ≤ addr.toNat) :
    exec (.rmem (.reg r) a) s = .next (s.raise .addressError addr) :=
  (exec_rmem_ok r ha).trans (withMemRead_of_size_le h _)

/-- 46_memory_ops.md R161, on an address out of bounds. -/
theorem exec_wmem_of_size_le (ha : resolve s a = .ok addr) (hb : resolve s b = .ok v)
    (h : s.mem.size ≤ addr.toNat) : exec (.wmem a b) s = .next (s.raise .addressError addr) :=
  calc exec (.wmem a b) s
    _ = withRead b s fun v => withMemWrite addr v s fun s' => .next (s'.advance 3) := withRead_ok _ ha
    _ = withMemWrite addr v s fun s' => .next (s'.advance 3) := withRead_ok _ hb
    _ = .next (s.raise .addressError addr) := withMemWrite_of_size_le h v _

/-- Of two operand Words one of which is illegal, WMEM raises the first that is (40_dispatch.md R94). -/
theorem exec_wmem_of_invalid (s : State) {w1 w2 : Word} (h : 32776 ≤ w1.toNat ∨ 32776 ≤ w2.toNat) :
    ∃ w, (w = w1 ∨ w = w2) ∧ 32776 ≤ w.toNat ∧
      exec (.wmem (.ofWord w1) (.ofWord w2)) s = .next (s.raise .invalidOperand w) := by
  by_cases h1 : 32776 ≤ w1.toNat
  case pos =>
    refine ⟨w1, .inl rfl, h1, exec_of_firstInvalid ?_⟩
    rw [Instr.firstInvalid_wmem, ReadSlot.ofWord_invalid h1, ReadSlot.invalidWord, Option.some_or]
  case neg =>
    have h2 : 32776 ≤ w2.toNat := h.resolve_left h1
    refine ⟨w2, .inr rfl, h2, exec_of_firstInvalid ?_⟩
    rw [Instr.firstInvalid_wmem, ReadSlot.invalidWord_ofWord_of_lt (Nat.lt_of_not_le h1), ReadSlot.ofWord_invalid h2,
      ReadSlot.invalidWord, Option.none_or]

/-- 20_memory.md R51: a store keeps the size and every Word but the one at its address; a fault keeps all of them. -/
theorem Effect.mem_of_wmem (he : Effect s (.wmem a b) t) :
    t.mem.size = s.mem.size ∧
      ∀ addr, resolve s a = .ok addr → ∀ n, n ≠ addr.toNat → t.mem.read n = s.mem.read n := by
  obtain hsame | ⟨a', b', addr', v, hi, ha', -, hm⟩ := he.mem_cases
  · exact ⟨congrArg Memory.size hsame, fun _ _ n _ => congrArg (·.read n) hsame⟩
  · obtain ⟨rfl, rfl⟩ := Instr.wmem.inj hi
    refine ⟨Memory.write_size hm, fun addr ha n hn => Memory.read_write_ne hm ?_⟩
    obtain rfl : addr = addr' := Except.ok.inj (ha.symm.trans ha')
    exact hn

end Sys2Proof.Machine

namespace Sys2Proof.Proofs

open Sys2Proof Sys2Proof.Machine

/-- Settles O59: everything but memory by exclusion, memory by `Effect.mem_of_wmem`. -/
theorem frameOfStore : Obligations.FrameOfStore := by
  intro a b s t hexec
  have he := effect_of_exec hexec
  refine ⟨he.sameRegs, ?stack, he.sameConsole nofun nofun, he.params_eq, he.sameStatusOrFault nofun nofun,
    he.mem_of_wmem⟩
  obtain hsame | ⟨_, -, -, _, ⟨hi, -⟩ | ⟨hi, -⟩⟩ | ⟨_, -, ⟨_, hi⟩ | hi⟩ := he.stack_cases
  · exact hsame
  all_goals cases hi

/-- Settles O41, by whether the address is in bounds. -/
theorem rmemLoadsMemoryWord : Obligations.RmemLoadsMemoryWord :=
  ⟨fun _ _ _ => rfl, fun _ r _ _ ha => ⟨fun _ => exec_rmem_of_read r ha, exec_rmem_of_size_le r ha⟩⟩

/-- Settles O42: in bounds by the laws of `Memory.write`, out of bounds by `exec_wmem_of_size_le`, and the illegal Words
by `exec_wmem_of_invalid`. -/
theorem wmemStoresMemoryWord : Obligations.WmemStoresMemoryWord := by
  refine ⟨fun _ _ _ => rfl, fun s a b addr v hwf ha hb => ⟨fun hin => ?_, exec_wmem_of_size_le ha hb⟩,
    fun s _ _ => exec_wmem_of_invalid s⟩
  obtain ⟨m, hm⟩ := Memory.write_of_lt hin v
  exact ⟨m, exec_wmem_of_write ha hb hm, Memory.write_size hm, Memory.read_write_self hwf hm,
    fun n hn => Memory.read_write_ne hm hn⟩

end Sys2Proof.Proofs
end

section
/-! CALL and RET (47_call_ret.md R170 to R172): CALL by whether the stack is full, and the RET that undoes it. -/

namespace Sys2Proof.Machine

variable {s : State} {a : ReadSlot} {u : Word}

/-- 47_call_ret.md R170. -/
theorem exec_call_of_not_full (ha : resolve s a = .ok u) (h : ¬ s.stackFull) :
    exec (.call a) s = .next ((s.setStack ((s.pc + 2) :: s.stack)).jump u) :=
  (withRead_ok _ ha).trans (withPush_of_not_full h _ _)

/-- 92_eei_decisions.md D11. -/
theorem exec_call_of_full (ha : resolve s a = .ok u) (h : s.stackFull) :
    exec (.call a) s = .next (s.raise .stackOverflow 0) :=
  (withRead_ok _ ha).trans (withPush_of_full h _ _)

end Sys2Proof.Machine

namespace Sys2Proof.Proofs

open Sys2Proof Sys2Proof.Machine

/-- Settles O52: the CALL leaves its return address on top of the stack, and RET pops it. -/
theorem retResumesAfterCall : Obligations.RetResumesAfterCall := by
  refine ⟨fun s t u a target ha hroom hcall hstack => ?_, fun s hempty => ⟨_, exec_ret_of_nil hempty, rfl, rfl⟩⟩
  obtain rfl : (s.setStack ((s.pc + 2) :: s.stack)).jump target = t :=
    Host.Outcome.next.inj ((exec_call_of_not_full ha hroom).symm.trans hcall)
  exact ⟨rfl, exec_ret_of_cons hstack⟩

/-- Settles O43, by whether the stack is full. -/
theorem callPushesReturnAddress : Obligations.CallPushesReturnAddress :=
  ⟨fun _ _ => rfl, fun _ _ _ ha => ⟨exec_call_of_not_full ha, exec_call_of_full ha⟩⟩

/-- Settles O44, by whether the stack is empty. -/
theorem retPopsTargetOrHalts : Obligations.RetPopsTargetOrHalts :=
  ⟨fun _ => rfl, fun _ => ⟨fun _ _ => exec_ret_of_cons, exec_ret_of_nil⟩⟩

end Sys2Proof.Proofs
end

section
/-! OUT and IN (48_io.md R180 to R186): what an IN takes from the queue or from a line, when it stops, and the frame of
both. -/

namespace Sys2Proof.Machine

variable {s t : State} {i : Instr}

/-- 48_io.md R180. -/
theorem exec_out_ok {a : ReadSlot} {x : Word} (ha : resolve s a = .ok x) :
    exec (.out a) s = .next ((s.emit (x.setWidth 8)).advance 2) :=
  withRead_ok _ ha

/-- Bits 7 to 0 of a Word, as a number. -/
theorem setWidth_eight_eq (x : Word) : x.setWidth 8 = BitVec.ofNat 8 (x.toNat % 256) := by
  apply BitVec.eq_of_toNat_eq
  simp only [BitVec.toNat_setWidth, BitVec.toNat_ofNat, Nat.reducePow, Nat.mod_mod]

/-- What an IN into `r` leaves when it takes `c` and the queue then holds `rest`, until a newline clears it
(48_io.md R181). -/
def State.deliver (s : State) (r : Reg) (c : Word) (rest : List Word) : State :=
  (((s.setQueue rest).clearOnNewline c).setReg r c).advance 2

/-- The newline compared as a character (log entry 10). -/
theorem State.deliver_eq (s : State) (r : Reg) (c : Word) (rest : List Word) :
    s.deliver r c rest =
      { s with regs := s.regs.set r c, inq := if c = 10 then [] else rest, pc := s.pc + 2 } := by
  have hnewline : c.toNat = newline ↔ c = 10 := (BitVec.toNat_eq (y := 10)).symm
  simp only [State.deliver, State.clearOnNewline, hnewline]
  rfl

/-- Taking the first character of a legal queue loses none of the others: the newline that clears the queue is the last
(48_io.md R183, R186). -/
theorem State.deliver_pendingInput (s : State) (r : Reg) {c : Word} {rest : List Word}
    (h : queueOk (c :: rest) = true) :
    (s.setQueue (c :: rest)).pendingInput = (s.deliver r c rest).reg r :: (s.deliver r c rest).pendingInput ∧
      queueOk (s.deliver r c rest).inq = true := by
  obtain ⟨hqueue, hlast, -⟩ := queueOk_step h
  have hkept : (s.deliver r c rest).inq = rest := by
    change (if c.toNat = newline then [] else rest) = rest
    split
    case isTrue hc => exact (hlast hc).symm
    case isFalse => rfl
  have hreg : (s.deliver r c rest).reg r = c := State.reg_setReg_self _ r c
  refine ⟨?_, hqueue⟩
  rw [State.pendingInput, State.pendingInput, hreg, hkept]
  rfl

/-! An IN with a legal destination, by what the queue and the console hold. -/

/-- 48_io.md R181, from the queue. -/
theorem exec_inp_of_queue (r : Reg) {c : Word} {rest : List Word} (hq : s.inq = c :: rest) :
    exec (.inp (.reg r)) s = .next (s.deliver r c rest) := by
  simp only [exec, execIn, withDest_reg, withInput, hq, State.deliver]

/-- 48_io.md R181, from a line with which the queue is refilled. -/
theorem exec_inp_of_line (r : Reg) {b : Byte} {bs : List Byte} {lines : List (List Byte)} (hq : s.inq = [])
    (hc : s.conIn = (b :: bs) :: lines) (hl : lineOk s.params (b :: bs) = true) :
    exec (.inp (.reg r)) s =
      .next ((s.setConsole lines).deliver r (b.setWidth 16) (bs.map (·.setWidth 16))) := by
  simp only [exec, execIn, withDest_reg, withInput, hq, hc, hl, if_true]
  rfl

/-- 48_io.md R184. -/
theorem exec_inp_of_no_line (r : Reg) (hq : s.inq = []) (hc : s.conIn = []) :
    exec (.inp (.reg r)) s = .fault .blocked := by
  simp only [exec, execIn, withDest_reg, withInput, hq, hc]

/-- 70_reset_and_hazards.md R240. -/
theorem exec_inp_of_malformed_line (r : Reg) {line : List Byte} {lines : List (List Byte)} (hq : s.inq = [])
    (hc : s.conIn = line :: lines) (hl : lineOk s.params line = false) :
    exec (.inp (.reg r)) s = .refused .malformedLine := by
  cases line with
  | nil => simp only [exec, execIn, withDest_reg, withInput, hq, hc]
  | cons b bs => simp only [exec, execIn, withDest_reg, withInput, hq, hc, hl, Bool.false_eq_true, if_false]

/-- The two ways in which an IN answers a next state. -/
theorem exec_inp_next {r : Reg} (h : exec (.inp (.reg r)) s = .next t) :
    (∃ c rest, s.inq = c :: rest ∧ t = s.deliver r c rest) ∨
    (∃ b bs lines, s.inq = [] ∧ s.conIn = (b :: bs) :: lines ∧ lineOk s.params (b :: bs) = true ∧
      t = (s.setConsole lines).deliver r (b.setWidth 16) (bs.map (·.setWidth 16))) := by
  cases hq : s.inq with
  | cons c rest => exact .inl ⟨c, rest, rfl, Host.Outcome.next.inj (h.symm.trans (exec_inp_of_queue r hq))⟩
  | nil =>
    cases hc : s.conIn with
    | nil => exact absurd (h.symm.trans (exec_inp_of_no_line r hq hc)) nofun
    | cons line lines =>
      cases hl : lineOk s.params line with
      | false => exact absurd (h.symm.trans (exec_inp_of_malformed_line r hq hc hl)) nofun
      | true =>
        cases line with
        | nil => exact absurd hl Bool.false_ne_true
        | cons b bs =>
          exact .inr ⟨b, bs, lines, rfl, rfl, hl, Host.Outcome.next.inj (h.symm.trans (exec_inp_of_line r hq hc hl))⟩

/-- An instruction without a next state is an IN that finds no character, and either no line or a malformed one
(48_io.md R184, 70_reset_and_hazards.md R240). -/
theorem exec_stop_cases (h : ∀ t, exec i s ≠ .next t) :
    (∃ r, i = .inp (.reg r)) ∧ s.inq = [] ∧
      ((s.conIn = [] ∧ exec i s = .fault .blocked) ∨
       ((∃ line lines, s.conIn = line :: lines ∧ lineOk s.params line = false) ∧
         exec i s = .refused .malformedLine)) := by
  by_cases hi : ∃ r, i = .inp (.reg r)
  case neg =>
    obtain ⟨t, ht⟩ := exec_total i s fun r hr => hi ⟨r, hr⟩
    exact absurd ht (h t)
  case pos =>
    refine ⟨hi, ?_⟩
    obtain ⟨r, rfl⟩ := hi
    rcases execIn_cases r s with ⟨-, t, ht⟩ | ⟨-, hq, hc, hstop⟩ | ⟨-, hq, hline, hstop⟩
    · exact absurd ht (h t)
    · exact ⟨hq, .inl ⟨hc, hstop⟩⟩
    · exact ⟨hq, .inr ⟨hline, hstop⟩⟩

/-- The stack belongs to PUSH, POP, CALL and RET (20_memory.md R63). -/
theorem Effect.stack_eq (he : Effect s i t) (hpush : ∀ a, i ≠ .push a) (hpop : ∀ d, i ≠ .pop d)
    (hcall : ∀ a, i ≠ .call a) (hret : i ≠ .ret) : t.stack = s.stack := by
  obtain hsame | ⟨_, -, -, a, ⟨hi, -⟩ | ⟨hi, -⟩⟩ | ⟨_, -, ⟨r, hi⟩ | hi⟩ := he.stack_cases
  · exact hsame
  · exact absurd hi (hpush a)
  · exact absurd hi (hcall a)
  · exact absurd hi (hpop (.reg r))
  · exact absurd hi hret

end Sys2Proof.Machine

namespace Sys2Proof.Proofs

open Sys2Proof Sys2Proof.Machine

/-- Settles O49: forwards by `exec_stop_cases`, backwards by the two ways in which an IN stops; a line supplied to an
empty console makes the input ready. -/
theorem execStopsOnlyForWantOfALine : Obligations.ExecStopsOnlyForWantOfALine := by
  refine ⟨fun i s f => ⟨fun h => ?_, ?_⟩, fun i s q => ⟨fun h => ?_, ?_⟩, fun s r line hq hc hl => ?_⟩
  · obtain ⟨hi, hq, ⟨hc, hstop⟩ | ⟨-, hstop⟩⟩ := exec_stop_cases (i := i) (s := s) (by rw [h]; exact nofun)
    · exact ⟨Host.Outcome.fault.inj (h.symm.trans hstop), hi, hq, hc⟩
    · exact absurd (h.symm.trans hstop) nofun
  · rintro ⟨rfl, ⟨r, rfl⟩, hq, hc⟩
    exact exec_inp_of_no_line r hq hc
  · obtain ⟨hi, hq, ⟨-, hstop⟩ | ⟨hline, hstop⟩⟩ := exec_stop_cases (i := i) (s := s) (by rw [h]; exact nofun)
    · exact absurd (h.symm.trans hstop) nofun
    · exact ⟨Host.Outcome.refused.inj (h.symm.trans hstop), hi, hq, hline⟩
  · rintro ⟨rfl, ⟨r, rfl⟩, hq, line, lines, hc, hl⟩
    exact exec_inp_of_malformed_line r hq hc hl
  · have hready : (s.supplyLine line).inputReady = true := by
      simp only [State.inputReady, State.supplyLine, State.setConsole_inq, State.setConsole_conIn,
        State.setConsole_params, hq, hc, List.nil_append, hl]
    exact (exec_inp_reg_next_iff r _).2 hready

/-- Settles O50, by `State.deliver_pendingInput` on the queue or on the line that refills it. -/
theorem insDeliverConcatenationOfLines : Obligations.InsDeliverConcatenationOfLines := by
  intro s t r hqueue hexec
  obtain ⟨c, rest, hq, rfl⟩ | ⟨b, bs, lines, hq, hc, hl, rfl⟩ := exec_inp_next hexec
  · have hpending : s.pendingInput = (s.setQueue (c :: rest)).pendingInput := by
      simp only [State.pendingInput, State.setQueue_inq, State.setQueue_conIn, hq]
    rw [hpending]
    exact s.deliver_pendingInput r (hq ▸ hqueue)
  · have hpending : s.pendingInput =
        ((s.setConsole lines).setQueue ((b :: bs).map (·.setWidth 16))).pendingInput := by
      simp only [State.pendingInput, State.setQueue_inq, State.setQueue_conIn, State.setConsole_conIn, hq, hc,
        List.flatten_cons, List.map_append, List.nil_append]
    rw [hpending]
    exact (s.setConsole lines).deliver_pendingInput r (queueOk_line hl)

/-- Settles O60: every part by exclusion, the registers by `Effect.sameRegs`. -/
theorem frameOfConsole : Obligations.FrameOfConsole := by
  intro d a s t i hmem hexec
  have hi : i = .out a ∨ i = .inp d := by
    simpa only [List.mem_cons, List.not_mem_nil, or_false] using hmem
  have he := effect_of_exec hexec
  refine ⟨he.sameRegs, he.sameMemory ?_, he.stack_eq ?_ ?_ ?_ ?_, he.params_eq, he.sameStatusOrFault ?_ ?_, ?out, ?inp⟩
  case out =>
    rintro rfl
    exact he.input_cases.resolve_right nofun
  case inp =>
    rintro rfl
    exact he.out_cases.resolve_right nofun
  all_goals rcases hi with rfl | rfl <;> nofun

/-- Settles O45, by `exec_out_ok`: the byte emitted is bits 7 to 0 of the operand. -/
theorem outAppendsLowByte : Obligations.OutAppendsLowByte := by
  refine ⟨fun _ _ => rfl, fun s a x ha => ?_⟩
  rw [exec_out_ok ha, setWidth_eight_eq]
  rfl

/-- Settles O46, by `State.deliver_eq` from the queue and from a line, whose bytes are compared before their
extension. -/
theorem inDeliversNextCharacter : Obligations.InDeliversNextCharacter := by
  refine ⟨fun _ _ => rfl, fun s r c cs hq => ?_, fun s r b bs lines hq hc hl => ?_⟩
  · rw [exec_inp_of_queue r hq, State.deliver_eq]
  · have hnewline : b.setWidth 16 = (10 : Word) ↔ b = 10 := by bv_omega
    simp only [exec_inp_of_line r hq hc hl, State.deliver_eq, hnewline, BitVec.ofNat_toNat]
    rfl

end Sys2Proof.Proofs
end

section
/-! How a step ends the run (60_exceptions.md R201, R212): the address that an AddressError reports, and the two ways
into `Halted`; HALT and NOOP themselves (49_halt_noop.md R190, R191). -/

namespace Sys2Proof.Machine

variable {s t : State} {i : Instr}

/-- What is decoded was fetched in bounds (40_dispatch.md R91). -/
theorem State.pc_lt_size_of_decode {rest : List Word} (h : decode s.fetchWords = .ok (i, rest)) :
    s.pc.toNat < s.mem.size := by
  by_contra hout
  rw [State.fetchWords_of_out_of_bounds (Nat.le_of_not_lt hout)] at h
  exact absurd h nofun

/-- A Word missing from the fetch lies out of bounds, at `pc` exactly if the opcode Word is the one missing
(40_dispatch.md R91, R93). -/
theorem State.missingWord_bounds {n : Nat} (h : decode s.fetchWords = .error (.missingWord n)) :
    n < 4 ∧ s.mem.size ≤ s.pc.toNat + n ∧ (n = 0 ↔ s.mem.size ≤ s.pc.toNat) := by
  obtain ⟨hlen, hlt⟩ := decode_missingWord h
  have hend : s.mem.size ≤ s.pc.toNat + n := hlen ▸ Memory.window_short (hlen.trans_lt hlt)
  refine ⟨hlt, hend, fun hzero => ?_, fun hout => ?_⟩
  · rwa [hzero] at hend
  · rw [← hlen, State.fetchWords_of_out_of_bounds hout, List.length_nil]

/-- An instruction that takes AddressError reports the address it used (46_memory_ops.md R160, R161). -/
theorem Effect.addressError_info (he : Effect s i t) (hrun : s.status = .running)
    (hfault : t.status = .faulted .addressError) :
    ∃ addr, t = s.raise .addressError addr ∧ s.mem.size ≤ addr.toNat := by
  cases he with
  | badAddress ha hn hi => exact ⟨_, rfl, hn⟩
  | badSlot | divideByZero | overflow | underflow | halt | retHalt => exact absurd hfault nofun
  | _ => exact absurd (hrun.symm.trans hfault) nofun

/-- 60_exceptions.md R212. -/
theorem Effect.eq_halt_of_halted (he : Effect s i t) (hrun : s.status = .running) (hhalt : t.status = .halted) :
    t = s.halt ∧ (i = .halt ∨ (i = .ret ∧ s.stack = [])) := by
  refine he.status_cases.resolve_left ?_
  rintro (⟨hsame, -⟩ | ⟨k, info, rfl⟩)
  · exact absurd (hrun.symm.trans (hsame.symm.trans hhalt)) nofun
  · exact absurd hhalt nofun

end Sys2Proof.Machine

namespace Sys2Proof.Proofs

open Sys2Proof Sys2Proof.Machine

/-- Settles O15: an instruction was fetched in bounds and reports an address out of bounds; a fetch reports `pc + n`,
which in a memory of legal size does not wrap. -/
theorem addressErrorTellsItsPlace : Obligations.AddressErrorTellsItsPlace := by
  intro s t hinv hstep hfault
  obtain ⟨hrun, ⟨i, rest, hdecode, hexec⟩ | ⟨e, hdecode, rfl⟩⟩ := step_next hstep
  · obtain ⟨addr, rfl, hout⟩ := (effect_of_exec hexec).addressError_info hrun hfault
    have hin := State.pc_lt_size_of_decode hdecode
    refine ⟨addr, rfl, hout, iff_of_false ?_ (Nat.not_le.2 hin)⟩
    rintro rfl
    exact Nat.not_le.2 hin hout
  · cases e with
    | unknownOpcode op => exact absurd hfault nofun
    | missingWord n =>
      obtain ⟨hn, hend, hzero⟩ := State.missingWord_bounds hdecode
      obtain ⟨hsize, -⟩ := hinv.memory
      have hpc := s.pc.isLt
      have hinfo : (BitVec.ofNat 16 (s.pc.toNat + n)).toNat = s.pc.toNat + n := by
        rw [BitVec.toNat_ofNat]
        omega
      refine ⟨_, rfl, hend.trans_eq hinfo.symm, ?_⟩
      rw [BitVec.toNat_eq, hinfo, ← hzero, Nat.add_eq_left]

/-- Settles O16: an instruction halts as `Effect.eq_halt_of_halted` says, and a fetch that fails takes a fault. -/
theorem haltedOnlyByHaltOrEmptyRet : Obligations.HaltedOnlyByHaltOrEmptyRet := by
  intro s t hstep hhalt
  obtain ⟨hrun, ⟨i, rest, hdecode, hexec⟩ | ⟨e, -, rfl⟩⟩ := step_next hstep
  · obtain ⟨rfl, hi⟩ := (effect_of_exec hexec).eq_halt_of_halted hrun hhalt
    exact ⟨rfl, i, rest, hdecode, hi⟩
  · obtain ⟨k, info, -, hraise⟩ := raiseDecode_eq s e
    rw [hraise] at hhalt
    exact absurd hhalt nofun

/-- Settles O47: HALT is `State.halt`. -/
theorem haltStopsTheMachine : Obligations.HaltStopsTheMachine :=
  ⟨fun _ => rfl, fun _ => rfl⟩

/-- Settles O48: NOOP is `State.advance` by its one Word. -/
theorem noopOnlyAdvancesPc : Obligations.NoopOnlyAdvancesPc :=
  ⟨fun _ => rfl, fun _ => rfl⟩

end Sys2Proof.Proofs
end
